-- ==== Sys2Proof/Word.lean ====
section
/-! DEFINITION. The word types of the block and the plainest facts about them (spec/00_scope.md R6, R7). -/

namespace Sys2Proof

/-- A data word, and the accumulator: XLEN = 32 bits, unsigned (00_scope R6). The program counter
has the same width (10_state R17). -/
abbrev Word := BitVec 32

/-- An instruction word: ILEN = 16 bits (00_scope R6). -/
abbrev IWord := BitVec 16

/-- The operand field of an instruction word: 10 bits, unsigned (00_scope R6). -/
abbrev Field10 := BitVec 10

/-- A text of the toolchain, as a list of characters (30_encoding R74 to R88). -/
abbrev Text := List Char

end Sys2Proof
end

