-- ==== Sys2Proof/Config.lean ====
section
/-! DEFINITION. The OPEN parameters of the block (spec/00_scope.md R6).

The spec calls them "a parameter the model takes as an argument". The machine's step takes a state and
nothing else, so they stand in the state, as the field `cfg` that no step and no command changes (log
entry 1). A statement about every state is thus a statement about every value of the parameters. -/

namespace Sys2Proof

/-- IMEM_WORDS, DMEM_WORDS, RESET_ZF and RESET_CF (00_scope R6). -/
structure Config where
  /-- IMEM_WORDS, the number of instruction-memory slots, at least 1. -/
  imemWords : Nat
  /-- DMEM_WORDS, the number of data-memory words, at least 1. -/
  dmemWords : Nat
  /-- RESET_ZF, the zero flag that `start()` writes. -/
  resetZF : Bool
  /-- RESET_CF, the carry flag that `start()` writes. -/
  resetCF : Bool
  deriving DecidableEq, Repr

/-- The parameters of `State.reset`. The sizes are a DESIGN CHOICE (log entry 1): the spec leaves both
open, and 1024 is the reach of the 10-bit operand field, so no field value is out of range. The flag
values are the spec's own default, false for both (00_scope R6; log entry 2). -/
def Config.default : Config :=
  { imemWords := 1024, dmemWords := 1024, resetZF := false, resetCF := false }

end Sys2Proof
end

