-- ==== Sys2Proof/Syntax.lean ====
section
/-! DEFINITION. The twenty instructions of the CPUEmul ISA (spec/30_encoding.md R60, spec/opcode_table.json). -/

namespace Sys2Proof

/-- The addressing mode `m` (30_encoding R57): 0 selects Immediate, 1 selects Indirect. -/
inductive Mode where
  | immediate
  | indirect
  deriving DecidableEq, Repr

/-- The twenty operations of the opcode table, in the order of their codes 0 to 19 (30_encoding R60). -/
inductive Op where
  | nop | load | store | loadind | add | sub | inc | dec | and | or | xor | not
  | shl | shr | jmp | jz | jnz | jc | jnc | hlt
  deriving DecidableEq, Repr

/-- An instruction, one constructor per row of the opcode table. The fifteen one-operand instructions
carry the mode and the 10-bit operand field; the five zero-operand ones carry nothing, because their
mode and operand bits are ignored (30_encoding R61, R63; log entry 9). -/
inductive Instr where
  | nop
  | load (m : Mode) (a : Field10)
  | store (m : Mode) (a : Field10)
  | loadind (m : Mode) (a : Field10)
  | add (m : Mode) (a : Field10)
  | sub (m : Mode) (a : Field10)
  | inc
  | dec
  | and (m : Mode) (a : Field10)
  | or (m : Mode) (a : Field10)
  | xor (m : Mode) (a : Field10)
  | not
  | shl (m : Mode) (a : Field10)
  | shr (m : Mode) (a : Field10)
  | jmp (m : Mode) (a : Field10)
  | jz (m : Mode) (a : Field10)
  | jnz (m : Mode) (a : Field10)
  | jc (m : Mode) (a : Field10)
  | jnc (m : Mode) (a : Field10)
  | hlt
  deriving DecidableEq, Repr

/-- The operation of an instruction. -/
def Instr.op : Instr → Op
  | .nop => .nop
  | .load _ _ => .load
  | .store _ _ => .store
  | .loadind _ _ => .loadind
  | .add _ _ => .add
  | .sub _ _ => .sub
  | .inc => .inc
  | .dec => .dec
  | .and _ _ => .and
  | .or _ _ => .or
  | .xor _ _ => .xor
  | .not => .not
  | .shl _ _ => .shl
  | .shr _ _ => .shr
  | .jmp _ _ => .jmp
  | .jz _ _ => .jz
  | .jnz _ _ => .jnz
  | .jc _ _ => .jc
  | .jnc _ _ => .jnc
  | .hlt => .hlt

/-- The mode and operand field of a one-operand instruction, none for a zero-operand one. -/
def Instr.operand : Instr → Option (Mode × Field10)
  | .nop => none
  | .load m a => some (m, a)
  | .store m a => some (m, a)
  | .loadind m a => some (m, a)
  | .add m a => some (m, a)
  | .sub m a => some (m, a)
  | .inc => none
  | .dec => none
  | .and m a => some (m, a)
  | .or m a => some (m, a)
  | .xor m a => some (m, a)
  | .not => none
  | .shl m a => some (m, a)
  | .shr m a => some (m, a)
  | .jmp m a => some (m, a)
  | .jz m a => some (m, a)
  | .jnz m a => some (m, a)
  | .jc m a => some (m, a)
  | .jnc m a => some (m, a)
  | .hlt => none

/-- Every operation, in the order of the codes 0 to 19. -/
def Op.all : List Op :=
  [.nop, .load, .store, .loadind, .add, .sub, .inc, .dec, .and, .or, .xor, .not,
   .shl, .shr, .jmp, .jz, .jnz, .jc, .jnc, .hlt]

/-- The operations that write the accumulator (10_state R15, first sentence). -/
def Op.accWriters : List Op :=
  [.load, .loadind, .add, .sub, .inc, .dec, .and, .or, .xor, .not, .shl, .shr]

/-- The operations that write the carry flag (10_state R22). -/
def Op.carryWriters : List Op := [.add, .sub, .inc, .dec, .shl, .shr]

/-- The operations that write the program counter in their handler (10_state R13, row `pc`). -/
def Op.jumps : List Op := [.jmp, .jz, .jnz, .jc, .jnc]

/-- How many operand tokens an operation takes: 0 for NOP, INC, DEC, NOT and HLT, 1 for the other
fifteen (30_encoding R61). -/
def Op.arity : Op → Nat
  | .nop => 0
  | .inc => 0
  | .dec => 0
  | .not => 0
  | .hlt => 0
  | .load => 1
  | .store => 1
  | .loadind => 1
  | .add => 1
  | .sub => 1
  | .and => 1
  | .or => 1
  | .xor => 1
  | .shl => 1
  | .shr => 1
  | .jmp => 1
  | .jz => 1
  | .jnz => 1
  | .jc => 1
  | .jnc => 1

end Sys2Proof
end

