-- ==== Sys2Proof/WellFormed.lean ====
section
/-! DEFINITION. The checks on parameters, operand values and instruction words.

An `Instr` needs no check of its own: its operand field has 10 bits by its type, and the decoder checks
neither the field's range nor the mode (spec/30_encoding.md R72), so every term of the type is a
well-formed instruction. What can be ill-formed is a value on its way into a field, a 16-bit word, and
the parameters. -/

namespace Sys2Proof

/-- Both memories have at least one word (00_scope R6, "an integer >= 1"). -/
def Config.wf (c : Config) : Bool := decide (1 ≤ c.imemWords) && decide (1 ≤ c.dmemWords)

/-- The value fits the 10-bit operand field (30_encoding R81). -/
def fitsOperandField (v : Nat) : Bool := decide (v ≤ 1023)

/-- The word's operation code is one of the twenty defined ones; the words `w >= 0xA000` are illegal
(30_encoding R62, R64). -/
def IWord.isDefined (w : IWord) : Bool := decide (w.toNat < 0xA000)

/-- The word is one the assembler can emit: its code is defined, and a zero-operand word has zero mode
and operand bits (30_encoding R86). The zero-operand codes are NOP 0, INC 6, DEC 7, NOT 11 and HLT 19. -/
def IWord.isCanonical (w : IWord) : Bool :=
  IWord.isDefined w &&
    (!([0, 6, 7, 11, 19].contains (w.toNat / 2048)) || decide (w.toNat % 2048 = 0))

end Sys2Proof
end

