-- ==== Sys2Proof/Decode.lean ====
section
/-! DEFINITION. Instruction words: field layout, opcode lookup, decoder and encoder (spec/30_encoding.md R53 to R66, R73). -/

namespace Sys2Proof

/-- The three fields of an instruction word (30_encoding R54). -/
structure Fields where
  opc : BitVec 5
  m : BitVec 1
  a : Field10
  deriving DecidableEq, Repr

/-- `opc = w[15:11]`, `m = w[10]`, `a = w[9:0]` (30_encoding R56). -/
def unpack (w : IWord) : Fields :=
  { opc := w.extractLsb' 11 5, m := w.extractLsb' 10 1, a := w.extractLsb' 0 10 }

/-- `w = a | (m << 10) | (opc << 11)` (30_encoding R55). -/
def pack (f : Fields) : IWord :=
  f.a.setWidth 16 ||| (f.m.setWidth 16 <<< 10) ||| (f.opc.setWidth 16 <<< 11)

/-- Mode of a mode bit: 0 = Immediate, 1 = Indirect (30_encoding R57). -/
def modeOfBit (b : BitVec 1) : Mode := if b = 0 then .immediate else .indirect

/-- Mode bit of a mode (30_encoding R57). -/
def bitOfMode : Mode → BitVec 1
  | .immediate => 0
  | .indirect => 1

/-- The opcode lookup: a constant 32-entry table from the 5-bit code to an operation, or none for the
twelve illegal codes 20 to 31 (30_encoding R59, R60). -/
def lookupOp (c : BitVec 5) : Option Op :=
  match c.toNat with
  | 0 => some .nop
  | 1 => some .load
  | 2 => some .store
  | 3 => some .loadind
  | 4 => some .add
  | 5 => some .sub
  | 6 => some .inc
  | 7 => some .dec
  | 8 => some .and
  | 9 => some .or
  | 10 => some .xor
  | 11 => some .not
  | 12 => some .shl
  | 13 => some .shr
  | 14 => some .jmp
  | 15 => some .jz
  | 16 => some .jnz
  | 17 => some .jc
  | 18 => some .jnc
  | 19 => some .hlt
  | _ => none

/-- The code of an operation (30_encoding R60). -/
def codeOfOp : Op → BitVec 5
  | .nop => 0
  | .load => 1
  | .store => 2
  | .loadind => 3
  | .add => 4
  | .sub => 5
  | .inc => 6
  | .dec => 7
  | .and => 8
  | .or => 9
  | .xor => 10
  | .not => 11
  | .shl => 12
  | .shr => 13
  | .jmp => 14
  | .jz => 15
  | .jnz => 16
  | .jc => 17
  | .jnc => 18
  | .hlt => 19

/-- The instruction of an operation with a given mode and field; a zero-operand operation drops both
(30_encoding R63). -/
def Op.instr (o : Op) (m : Mode) (a : Field10) : Instr :=
  match o with
  | .nop => .nop
  | .load => .load m a
  | .store => .store m a
  | .loadind => .loadind m a
  | .add => .add m a
  | .sub => .sub m a
  | .inc => .inc
  | .dec => .dec
  | .and => .and m a
  | .or => .or m a
  | .xor => .xor m a
  | .not => .not
  | .shl => .shl m a
  | .shr => .shr m a
  | .jmp => .jmp m a
  | .jz => .jz m a
  | .jnz => .jnz m a
  | .jc => .jc m a
  | .jnc => .jnc m a
  | .hlt => .hlt

/-- What a word decodes to: an instruction, or by name a rejection with the illegal code
(30_encoding R62, R64). -/
inductive Decoded where
  | instr (i : Instr)
  | illegalOpcode (opc : BitVec 5)
  deriving DecidableEq, Repr

/-- The decoder over any opcode map: the parameter OPCODE_MAP of a model that must read binaries of a
particular build (00_scope R6, R12; log entry 10). -/
def decodeWith (lookup : BitVec 5 → Option Op) (w : IWord) : Decoded :=
  let f := unpack w
  match lookup f.opc with
  | some o => .instr (o.instr (modeOfBit f.m) f.a)
  | none => .illegalOpcode f.opc

/-- The block's decoder: the map of 30_encoding R60. It validates only the code (R72). -/
def decode (w : IWord) : Decoded := decodeWith lookupOp w

/-- The mode bit and operand field that an encoder writes: those of the instruction, or zeros for a
zero-operand one (30_encoding R86). -/
def Instr.fieldBits (i : Instr) : BitVec 1 × Field10 :=
  match i.operand with
  | some (m, a) => (bitOfMode m, a)
  | none => (0, 0)

/-- The fields of an instruction under an opcode map. -/
def Instr.fieldsWith (code : Op → BitVec 5) (i : Instr) : Fields :=
  { opc := code i.op, m := i.fieldBits.1, a := i.fieldBits.2 }

/-- The encoder over any opcode map (log entry 10). -/
def encodeWith (code : Op → BitVec 5) (i : Instr) : IWord := pack (i.fieldsWith code)

/-- The word of an instruction (30_encoding R55, R60, R86). -/
def encode (i : Instr) : IWord := encodeWith codeOfOp i

/-- The instruction of a word numbered as spec/opcode_table.json numbers it, none where the decoder
rejects it. Every instruction is one 16-bit word (30_encoding R53), so the table's number is the word
and the bits from `nbits` up are zeros. -/
def decodeTableWord (nbits w : Nat) : Option Instr :=
  match decode (BitVec.ofNat 16 (w % 2 ^ nbits)) with
  | .instr i => some i
  | .illegalOpcode _ => none

end Sys2Proof
end

