-- ==== Sys2Proof/Machine/Flags.lean ====
section
/-! DEFINITION. The flag computations and the shifter (spec/10_state.md R21, R24, spec/41_arithmetic.md R92, spec/43_shift.md R101). -/

namespace Sys2Proof.Machine

/-- The zero flag of a value just written to the accumulator (10_state R21). -/
def zeroFlag (v : Word) : Bool := decide (v = 0)

/-- The carry of `old + v`: the sum wrapped below the old accumulator (41_arithmetic R93). -/
def addCarry (old v : Word) : Bool := decide ((old + v).toNat < old.toNat)

/-- The borrow of `old - v`: the result is above the old accumulator (41_arithmetic R94). -/
def subBorrow (old v : Word) : Bool := decide ((old - v).toNat > old.toNat)

/-- The carry of INC (41_arithmetic R95). -/
def incCarry (old : Word) : Bool := decide (old = 0xFFFFFFFF)

/-- The borrow of DEC (41_arithmetic R96). -/
def decBorrow (old : Word) : Bool := decide (old = 0)

/-- The shift count: the low five bits of the resolved operand (43_shift R101). -/
def shiftCount (v : Word) : Nat := (v &&& 0x1F).toNat

/-- The last bit shifted out to the left, false for a count of 0 (43_shift R102). -/
def shlCarry (old : Word) (n : Nat) : Bool := if n = 0 then false else old.getLsbD (32 - n)

/-- The last bit shifted out to the right, false for a count of 0 (43_shift R103). -/
def shrCarry (old : Word) (n : Nat) : Bool := if n = 0 then false else old.getLsbD (n - 1)

/-- The logical negation of the accumulator: 1 for 0, and 0 for every other value (42_logic R100). -/
def logicalNot (old : Word) : Word := if old = 0 then 1 else 0

end Sys2Proof.Machine
end

