-- ==== Sys2Proof/Machine/State.lean ====
section
/-! DEFINITION. The state of the block, its faults and refusals, and the power-on state
(spec/10_state.md R13, spec/60_exceptions.md R113, spec/70_reset_and_hazards.md R136). -/

namespace Sys2Proof.Machine

/-- A word-indexed memory: the listed words by address (20_memory R34). The unit of addressing is the
word and the block has no byte order (R35, R41), so a cell holds a whole word (log entry 4). -/
abbrev Memory (w : Nat) := List (Nat × BitVec w)

/-- What an unlisted address reads as: 0, the power-on value of every word (70_reset R136) and the
padding of a short image (60_exceptions R118; log entry 5). -/
abbrev Memory.unlisted (w : Nat) : BitVec w := 0

/-- The canonical form: addresses strictly rising, and no entry equal to what an unlisted address reads
as. Equal memories are then equal lists. -/
abbrev Memory.wf {w : Nat} (m : Memory w) : Prop :=
  m.Pairwise (fun c d => c.1 < d.1) ∧ ∀ c ∈ m, c.2 ≠ Memory.unlisted w

/-- Every listed address is below `n`, the size of the array. -/
abbrev Memory.within {w : Nat} (n : Nat) (m : Memory w) : Prop := ∀ c ∈ m, c.1 < n

/-- The run state (10_state R27). -/
inductive RunState where
  | stopped
  | running
  deriving DecidableEq, Repr

/-- Which of the two memories a load names (60_exceptions R113, code 4: "cause and which memory"). -/
inductive MemoryKind where
  | instruction
  | data
  deriving DecidableEq, Repr

/-- The cause of a usage fault (60_exceptions R113, codes 1 to 4). -/
inductive UsageCause where
  /-- Code 1: `start()` while Running. -/
  | startWhileRunning
  /-- Code 2: `stop()` while Stopped. -/
  | stopWhileStopped
  /-- Code 3: `step()` while Stopped, including after HLT. -/
  | stepWhileStopped
  /-- Code 4: a load while Running, with the memory it names. -/
  | loadWhileRunning (which : MemoryKind)
  deriving DecidableEq, Repr

/-- The fault causes of the block (60_exceptions R113). All are fatal and final (R114). -/
inductive Fault where
  /-- Codes 1 to 4: a host command in the wrong run state (R121). Raised by `start`, `stop`, `step` and
  the loads. Safe: the spec's own fault. -/
  | usage (cause : UsageCause)
  /-- Code 5: a fetch at `pc >= IMEM_WORDS` (R122). Raised by the fetch of a step. Safe: the spec's own
  fault, and it stops where the repository might go on (92_eei_decisions D9). -/
  | pcRange (pc : Word)
  /-- Code 6: a fetched word with code 20 to 31 (R123). Raised by the decode of a step. Safe: the spec's
  own fault (D10). -/
  | illegalOpcode (w : IWord) (pc : Word)
  /-- Code 7: a data access at `addr >= DMEM_WORDS` (R124). Raised by the multiplexer in Indirect mode,
  by STORE and by LOADIND. Safe: the spec's own fault (D8). -/
  | dataAddress (addr : Word) (pc : Word)
  deriving DecidableEq, Repr

/-- What the model declines to give a meaning. -/
inductive Refusal where
  /-- An instruction without a meaning yet, raised by an arm of `exec` alone. No arm raises it: all
  twenty instructions have their meaning. Safe. -/
  | notModelled (mnemonic : String)
  /-- Raised by a load command whose image is longer than the array: the spec gives the command only an
  array of the memory's own size (R118; log entry 11). Safe: the model stops. -/
  | imageTooLong (which : MemoryKind) (limit : Nat)
  deriving DecidableEq, Repr

/-- The complete state of the block (10_state R13), and its parameters (00_scope R6). -/
structure State where
  /-- `acc`, the accumulator (R14). -/
  acc : Word
  /-- `zf`, the zero flag (R21). -/
  zf : Bool
  /-- `cf`, the carry flag (R22). -/
  cf : Bool
  /-- `pc`, the program counter, a slot index (R17). -/
  pc : Word
  /-- `ir`, the current instruction (R26). -/
  ir : IWord
  /-- `run`, the run state (R27). -/
  run : RunState
  /-- `steps`, the step counter, unbounded (R28). -/
  steps : Nat
  /-- `IMem` (R30). -/
  imem : Memory 16
  /-- `DMem` (R31). -/
  dmem : Memory 32
  /-- The fault record (60_exceptions R114). -/
  fault : Option Fault
  /-- The OPEN parameters, constant over every run (00_scope R6; log entry 1). -/
  cfg : Config
  deriving DecidableEq, Repr

/-- The power-on state, before the first host command (70_reset R136). -/
def State.powerOn (c : Config) : State :=
  { acc := 0, zf := c.resetZF, cf := c.resetCF, pc := 0, ir := 0, run := .stopped, steps := 0,
    imem := [], dmem := [], fault := none, cfg := c }

/-- The machine right after power-on, with the default parameters (70_reset R136; log entries 1, 2 and 3). -/
def State.reset : State := State.powerOn Config.default

end Sys2Proof.Machine
end

