-- ==== Sys2Proof/Machine/Ops.lean ====
section
/-! DEFINITION. The named operations over the memories and registers, and the recording of a fault
(spec/20_memory.md R38 to R40, spec/10_state.md R17 to R32, spec/60_exceptions.md R114, R115, R127). -/

namespace Sys2Proof.Machine

/-- What a meaning and a step answer. -/
abbrev Result := Host.Outcome State Fault Refusal

/-! ### Words of a memory -/

/-- The word at an address of a memory. -/
def Memory.read {w : Nat} : Memory w → Nat → BitVec w
  | [], _ => Memory.unlisted w
  | (b, v) :: m, a => if a = b then v else Memory.read m a

/-- Replace the word at one address, keeping the canonical form. -/
def Memory.write {w : Nat} : Memory w → Nat → BitVec w → Memory w
  | [], a, v => if v = Memory.unlisted w then [] else [(a, v)]
  | (b, u) :: m, a, v =>
    if a < b then (if v = Memory.unlisted w then (b, u) :: m else (a, v) :: (b, u) :: m)
    else if a = b then (if v = Memory.unlisted w then m else (a, v) :: m)
    else (b, u) :: Memory.write m a v

/-- The memory that holds the words of an image from address `base` on, and 0 elsewhere. -/
def Memory.ofImageFrom {w : Nat} (base : Nat) : List (BitVec w) → Memory w
  | [] => []
  | v :: vs =>
    if v = Memory.unlisted w then Memory.ofImageFrom (base + 1) vs
    else (base, v) :: Memory.ofImageFrom (base + 1) vs

/-- The memory that a load writes: the image from address 0 on, the rest padded with 0
(60_exceptions R118). -/
def Memory.ofImage {w : Nat} (img : List (BitVec w)) : Memory w := Memory.ofImageFrom 0 img

/-! ### The memory primitives -/

/-- `IFetch(pc)` (20_memory R38). -/
def iFetch (s : State) : Except Fault IWord :=
  if s.pc.toNat < s.cfg.imemWords then .ok (Memory.read s.imem s.pc.toNat) else .error (.pcRange s.pc)

/-- `MemRead(addr, 1)` (20_memory R39). The fault records the address and the pc (60_exceptions R124). -/
def memRead (s : State) (addr : Word) : Except Fault Word :=
  if addr.toNat < s.cfg.dmemWords then .ok (Memory.read s.dmem addr.toNat)
  else .error (.dataAddress addr s.pc)

/-- The state with one data word replaced. -/
def State.withDataWord (s : State) (addr : Word) (v : Word) : State :=
  { s with dmem := Memory.write s.dmem addr.toNat v }

/-- `MemWrite(addr, 1, v)` (20_memory R40). A faulting write writes nothing. -/
def memWrite (s : State) (addr v : Word) : Except Fault State :=
  if addr.toNat < s.cfg.dmemWords then .ok (s.withDataWord addr v) else .error (.dataAddress addr s.pc)

/-! ### Register updates -/

/-- Write the accumulator; every such write recomputes the zero flag (10_state R21). -/
def State.writeAcc (s : State) (v : Word) : State := { s with acc := v, zf := zeroFlag v }

/-- Write the carry flag (10_state R22). -/
def State.writeCarry (s : State) (c : Bool) : State := { s with cf := c }

/-- A taken jump: `pc <- t - 1`, which the cycle's increment turns into `t` (10_state R18, 44_control R104). -/
def State.jumpTo (s : State) (t : Word) : State := { s with pc := t - 1 }

/-- A conditional jump: taken when the condition holds, else nothing is written (44_control R104). -/
def State.jumpIf (s : State) (c : Bool) (t : Word) : State := if c then s.jumpTo t else s

/-- HLT's write of the run state (45_system R111). -/
def State.halt (s : State) : State := { s with run := .stopped }

/-- The fetch's write of the current instruction (10_state R26). -/
def State.writeIr (s : State) (w : IWord) : State := { s with ir := w }

/-- The end of the step cycle: `pc <- pc + 1`, then the step counter unless the step halted
(30_encoding R70, 10_state R28). -/
def State.advance (s : State) : State :=
  match s.run with
  | .stopped => { s with pc := s.pc + 1 }
  | .running => { s with pc := s.pc + 1, steps := s.steps + 1 }

/-- `start()`'s writes: the values of 10_state R32 and nothing else. -/
def State.started (s : State) : State :=
  { s with pc := 0, acc := 0, zf := s.cfg.resetZF, cf := s.cfg.resetCF, steps := 0, run := .running }

/-! ### Taking a fault

A fault saves no state, changes no mode and transfers control to no handler (60_exceptions R127), so
taking one is raising it, which ends the command, and recording it, which ends the run. No return from a
fault exists (R128). -/

/-- Raise a fault: the instruction or command ends at once and none of its effect happens (00_scope R9). -/
def raise (f : Fault) : Result := .fault f

/-- The state after a fault: the fault is recorded (60_exceptions R114) and nothing else is written
but `ir`, and that only by the fetch that completed before an illegal opcode (R115, 92_eei_decisions D25,
93_implementation_defined I10; log entry 7). -/
def State.recordFault (s : State) (f : Fault) : State :=
  match f with
  | .usage _ => { s with fault := some f }
  | .pcRange _ => { s with fault := some f }
  | .illegalOpcode _ _ => { s with ir := Memory.read s.imem s.pc.toNat, fault := some f }
  | .dataAddress _ _ => { s with fault := some f }

/-- The numeric code of a fault (60_exceptions R113). -/
def Fault.code : Fault → Nat
  | .usage .startWhileRunning => 1
  | .usage .stopWhileStopped => 2
  | .usage .stepWhileStopped => 3
  | .usage (.loadWhileRunning _) => 4
  | .pcRange _ => 5
  | .illegalOpcode _ _ => 6
  | .dataAddress _ _ => 7

/-- The slot whose word a step can fetch: `pc` where it is in range, else slot 0, the entry point
(70_reset R137). -/
def State.fetchSlot (s : State) : Word := if s.pc.toNat < s.cfg.imemWords then s.pc else 0

/-- The state that fetches and runs a given word next: the word stands in the slot of the pc, the block
is Running and no fault is recorded. It stands for the host's load and start (70_reset R138; log entry 3). -/
def State.withWordAtPc (s : State) (w : IWord) : State :=
  { s with
    pc := s.fetchSlot, imem := Memory.write s.imem s.fetchSlot.toNat w, run := .running, fault := none }

end Sys2Proof.Machine
end

