-- ==== Sys2Proof/Machine/Cycle.lean ====
section
/-! DEFINITION. What the step cycle does around the execute phase (spec/30_encoding.md R70). -/

namespace Sys2Proof.Machine

/-- The first half of the cycle: usage check, fetch, `ir <- w`, lookup. It answers the instruction and
the state the execute phase starts from, or the first fault in the order of 60_exceptions R125. A state
with a recorded fault takes no further step (R114): it answers that fault again (log entry 6). -/
def beginStep (s : State) : Except Fault (Instr × State) :=
  match s.fault with
  | some f => .error f
  | none =>
    match s.run with
    | .stopped => .error (.usage .stepWhileStopped)
    | .running =>
      match iFetch s with
      | .error f => .error f
      | .ok w =>
        match decode w with
        | .illegalOpcode _ => .error (.illegalOpcode w s.pc)
        | .instr i => .ok (i, s.writeIr w)

/-- The second half of the cycle, after the execute phase: advance the pc and the step counter. -/
def endStep : Result → Result
  | .next s => .next s.advance
  | .fault f => .fault f
  | .refused r => .refused r

end Sys2Proof.Machine
end

