-- ==== Sys2Proof/Machine/Operands.lean ====
section
/-! DEFINITION. The addressing-mode multiplexer (spec/30_encoding.md R66, R67). -/

namespace Sys2Proof.Machine

/-- `zext_32(a)`: the field is unsigned and is never sign-extended, scaled or shifted (30_encoding R58). -/
def zext32 (a : Field10) : Word := a.setWidth 32

/-- `Operand()`: the field in Immediate mode, the data word it addresses in Indirect mode, which may
fault (30_encoding R66). The mode and field are those of the decoded instruction, which the cycle reads
from `ir` (log entry 8). -/
def resolveOperand (m : Mode) (a : Field10) (s : State) : Except Fault Word :=
  match m with
  | .immediate => .ok (zext32 a)
  | .indirect => memRead s (zext32 a)

/-- Resolve the operand once, as the first action of the execute phase, and go on with it
(30_encoding R67). -/
def withOperand (m : Mode) (a : Field10) (s : State) (k : Word → Result) : Result :=
  match resolveOperand m a s with
  | .ok v => k v
  | .error f => raise f

end Sys2Proof.Machine
end

