-- ==== Sys2Proof/Machine/Arithmetic.lean ====
section
/-! DEFINITION. ADD, SUB, INC and DEC (spec/41_arithmetic.md R92 to R96). -/

namespace Sys2Proof.Machine

/-- ADD (R93). -/
def execAdd (m : Mode) (a : Field10) (s : State) : Result :=
  withOperand m a s fun v => .next ((s.writeAcc (s.acc + v)).writeCarry (addCarry s.acc v))

/-- SUB (R94): the carry is the borrow. -/
def execSub (m : Mode) (a : Field10) (s : State) : Result :=
  withOperand m a s fun v => .next ((s.writeAcc (s.acc - v)).writeCarry (subBorrow s.acc v))

/-- INC (R95). -/
def execInc (s : State) : Result := .next ((s.writeAcc (s.acc + 1)).writeCarry (incCarry s.acc))

/-- DEC (R96). -/
def execDec (s : State) : Result := .next ((s.writeAcc (s.acc - 1)).writeCarry (decBorrow s.acc))

end Sys2Proof.Machine
end

