-- ==== Sys2Proof/Machine/Control.lean ====
section
/-! DEFINITION. JMP, JZ, JNZ, JC and JNC (spec/44_control.md R104 to R109). -/

namespace Sys2Proof.Machine

/-- JMP (R105). -/
def execJmp (m : Mode) (a : Field10) (s : State) : Result :=
  withOperand m a s fun t => .next (s.jumpTo t)

/-- JZ (R106). -/
def execJz (m : Mode) (a : Field10) (s : State) : Result :=
  withOperand m a s fun t => .next (s.jumpIf s.zf t)

/-- JNZ (R107). -/
def execJnz (m : Mode) (a : Field10) (s : State) : Result :=
  withOperand m a s fun t => .next (s.jumpIf (!s.zf) t)

/-- JC (R108): as observed in the source, it jumps when the carry is CLEAR (90_conflicts C2). -/
def execJc (m : Mode) (a : Field10) (s : State) : Result :=
  withOperand m a s fun t => .next (s.jumpIf (!s.cf) t)

/-- JNC (R109). -/
def execJnc (m : Mode) (a : Field10) (s : State) : Result :=
  withOperand m a s fun t => .next (s.jumpIf (!s.cf) t)

end Sys2Proof.Machine
end

