-- ==== Sys2Proof/Machine/LoadStore.lean ====
section
/-! DEFINITION. LOAD, STORE and LOADIND (spec/40_load_store.md R89 to R91). -/

namespace Sys2Proof.Machine

/-- LOAD (R89). -/
def execLoad (m : Mode) (a : Field10) (s : State) : Result :=
  withOperand m a s fun v => .next (s.writeAcc v)

/-- STORE (R90): the address is the resolved operand, and all 32 bits of the accumulator are stored. -/
def execStore (m : Mode) (a : Field10) (s : State) : Result :=
  withOperand m a s fun addr =>
    match memWrite s addr s.acc with
    | .ok t => .next t
    | .error f => raise f

/-- LOADIND (R91): one read beyond the multiplexer's own. -/
def execLoadind (m : Mode) (a : Field10) (s : State) : Result :=
  withOperand m a s fun addr =>
    match memRead s addr with
    | .ok v => .next (s.writeAcc v)
    | .error f => raise f

end Sys2Proof.Machine
end

