-- ==== Sys2Proof/Machine/Logic.lean ====
section
/-! DEFINITION. AND, OR, XOR and NOT (spec/42_logic.md R97 to R100). None of them writes the carry. -/

namespace Sys2Proof.Machine

/-- AND (R97). -/
def execAnd (m : Mode) (a : Field10) (s : State) : Result :=
  withOperand m a s fun v => .next (s.writeAcc (s.acc &&& v))

/-- OR (R98). -/
def execOr (m : Mode) (a : Field10) (s : State) : Result :=
  withOperand m a s fun v => .next (s.writeAcc (s.acc ||| v))

/-- XOR (R99). -/
def execXor (m : Mode) (a : Field10) (s : State) : Result :=
  withOperand m a s fun v => .next (s.writeAcc (s.acc ^^^ v))

/-- NOT (R100): the logical negation, not the bitwise complement (90_conflicts C3). -/
def execNot (s : State) : Result := .next (s.writeAcc (logicalNot s.acc))

end Sys2Proof.Machine
end

