-- ==== Sys2Proof/Machine/Shift.lean ====
section
/-! DEFINITION. SHL and SHR (spec/43_shift.md R101 to R103). -/

namespace Sys2Proof.Machine

/-- SHL (R102). A count of 0 leaves the accumulator's value, clears the carry and recomputes the zero flag. -/
def execShl (m : Mode) (a : Field10) (s : State) : Result :=
  withOperand m a s fun v =>
    .next ((s.writeAcc (s.acc <<< shiftCount v)).writeCarry (shlCarry s.acc (shiftCount v)))

/-- SHR (R103): logical, with zero fill. -/
def execShr (m : Mode) (a : Field10) (s : State) : Result :=
  withOperand m a s fun v =>
    .next ((s.writeAcc (s.acc >>> shiftCount v)).writeCarry (shrCarry s.acc (shiftCount v)))

end Sys2Proof.Machine
end

