-- ==== Sys2Proof/Machine/System.lean ====
section
/-! DEFINITION. NOP and HLT (spec/45_system.md R110, R111). -/

namespace Sys2Proof.Machine

/-- NOP (R110): the execute phase does nothing. -/
def execNop (s : State) : Result := .next s

/-- HLT (R111): the block stops; the cycle still advances the pc. -/
def execHlt (s : State) : Result := .next s.halt

end Sys2Proof.Machine
end

