-- ==== Sys2Proof/Machine/Dispatch.lean ====
section
/-! DEFINITION. The execute phase of the twenty instructions (spec/30_encoding.md R70, `Execute(op)`). -/

namespace Sys2Proof.Machine

def exec (i : Instr) (s : State) : Host.Outcome State Fault Refusal :=
  match i with
  | .nop => Sys2Proof.Machine.execNop s
  | .load m a => Sys2Proof.Machine.execLoad m a s
  | .store m a => Sys2Proof.Machine.execStore m a s
  | .loadind m a => Sys2Proof.Machine.execLoadind m a s
  | .add m a => Sys2Proof.Machine.execAdd m a s
  | .sub m a => Sys2Proof.Machine.execSub m a s
  | .inc => Sys2Proof.Machine.execInc s
  | .dec => Sys2Proof.Machine.execDec s
  | .and m a => Sys2Proof.Machine.execAnd m a s
  | .or m a => Sys2Proof.Machine.execOr m a s
  | .xor m a => Sys2Proof.Machine.execXor m a s
  | .not => Sys2Proof.Machine.execNot s
  | .shl m a => Sys2Proof.Machine.execShl m a s
  | .shr m a => Sys2Proof.Machine.execShr m a s
  | .jmp m a => Sys2Proof.Machine.execJmp m a s
  | .jz m a => Sys2Proof.Machine.execJz m a s
  | .jnz m a => Sys2Proof.Machine.execJnz m a s
  | .jc m a => Sys2Proof.Machine.execJc m a s
  | .jnc m a => Sys2Proof.Machine.execJnc m a s
  | .hlt => Sys2Proof.Machine.execHlt s

end Sys2Proof.Machine
end

