-- ==== Sys2Proof/Machine/Step.lean ====
section
/-! DEFINITION. The single-step transition of the block (spec/30_encoding.md R70). -/

namespace Sys2Proof.Machine

/-- `step()` (30_encoding R70). -/
def step (s : State) : Host.Outcome State Fault Refusal :=
  match beginStep s with
  | .error f => raise f
  | .ok (i, s1) => endStep (exec i s1)

/-- The state whose very next step fetches and runs the word `w`. Every instruction is one 16-bit word, so
the bits from `nbits` up are zeros (log entry 3). -/
def State.withFetchWord (s : State) (nbits w : Nat) : State :=
  s.withWordAtPc (BitVec.ofNat 16 (w % 2 ^ nbits))

end Sys2Proof.Machine
end

