-- ==== Sys2Proof/Machine/Disassembler.lean ====
section
/-! DEFINITION. The reverse lookup of an instruction word (spec/30_encoding.md R74). -/

namespace Sys2Proof.Machine

/-- The mnemonic of an operation (30_encoding R60). -/
def mnemonic : Op → Text
  | .nop => ['N', 'O', 'P']
  | .load => ['L', 'O', 'A', 'D']
  | .store => ['S', 'T', 'O', 'R', 'E']
  | .loadind => ['L', 'O', 'A', 'D', 'I', 'N', 'D']
  | .add => ['A', 'D', 'D']
  | .sub => ['S', 'U', 'B']
  | .inc => ['I', 'N', 'C']
  | .dec => ['D', 'E', 'C']
  | .and => ['A', 'N', 'D']
  | .or => ['O', 'R']
  | .xor => ['X', 'O', 'R']
  | .not => ['N', 'O', 'T']
  | .shl => ['S', 'H', 'L']
  | .shr => ['S', 'H', 'R']
  | .jmp => ['J', 'M', 'P']
  | .jz => ['J', 'Z']
  | .jnz => ['J', 'N', 'Z']
  | .jc => ['J', 'C']
  | .jnc => ['J', 'N', 'C']
  | .hlt => ['H', 'L', 'T']

/-- The marker of a mode: `*` for Indirect, nothing for Immediate (30_encoding R74, R79). -/
def modeMarker : Mode → Text
  | .immediate => []
  | .indirect => ['*']

/-- The printed form of an instruction: `MNEMONIC a`, `MNEMONIC *a` with `a` in decimal, or `MNEMONIC`
alone for a zero-operand one (30_encoding R74). -/
def disassembleInstr (i : Instr) : Text :=
  mnemonic i.op ++
    match i.operand with
    | some (m, a) => ' ' :: (modeMarker m ++ Nat.toDigits 10 a.toNat)
    | none => []

/-- The printed form of a word; codes 20 to 31 have no mnemonic (30_encoding R74). -/
def disassemble (w : IWord) : Option Text :=
  match decode w with
  | .instr i => some (disassembleInstr i)
  | .illegalOpcode _ => none

end Sys2Proof.Machine
end

