-- ==== Sys2Proof/Machine/Assembler.lean ====
section
/-! DEFINITION. The text assembler, the toolchain that produces instruction words (spec/30_encoding.md
R75 to R88). It is software outside the block (spec/00_scope.md R5); it is modelled because its rules fix
which words a translated program can contain. -/

namespace Sys2Proof.Machine

/-- The six kinds of translation error (30_encoding R85). -/
inductive ErrorKind where
  | sizeLimitExceeded
  | valueOutOfRange
  | unrecognizedMnemonic
  | unexpectedExtraToken
  | missingRequiredToken
  | malformedNumericLiteral
  deriving DecidableEq, Repr

/-- The human-readable name of an error kind (30_encoding R85). -/
def ErrorKind.category : ErrorKind → String
  | .sizeLimitExceeded => "size-limit-exceeded"
  | .valueOutOfRange => "value-out-of-range"
  | .unrecognizedMnemonic => "unrecognized-mnemonic"
  | .unexpectedExtraToken => "unexpected-extra-token"
  | .missingRequiredToken => "missing-required-token"
  | .malformedNumericLiteral => "malformed-numeric-literal"

/-- A `TranslationError` is `kind, line`, the line counted from 0 (30_encoding R75, R84). -/
structure TranslationError where
  kind : ErrorKind
  line : Nat
  deriving DecidableEq, Repr

/-! ### Lines and tokens -/

/-- Cut a text at every character that a test names; the cut characters are dropped. -/
def splitWhere (cut : Char → Bool) : Text → List Text
  | [] => [[]]
  | c :: cs =>
    match splitWhere cut cs with
    | [] => [[c]]
    | w :: ws => if cut c then [] :: w :: ws else (c :: w) :: ws

/-- The lines of a source text, cut at the newline character (log entry 12). -/
def linesOf (t : Text) : List Text := splitWhere (fun c => c == '\n') t

/-- The whitespace-delimited tokens of a line (30_encoding R76; log entry 12). -/
def tokensOf (line : Text) : List Text :=
  (splitWhere (fun c => c == ' ' || c == '\t' || c == '\r') line).filter (fun t => !t.isEmpty)

/-- The token begins with `#` and so opens a comment (30_encoding R76). -/
def opensComment (t : Text) : Bool := t.head? == some '#'

/-- The tokens of a line before a comment marker (30_encoding R76). -/
def codeTokens (line : Text) : List Text := (tokensOf line).takeWhile (fun t => !opensComment t)

/-- The line has at least one token before a comment marker, so it counts toward the size limit
(30_encoding R83). -/
def holdsCode (line : Text) : Bool := !(codeTokens line).isEmpty

/-! ### Literals -/

/-- The value of a hexadecimal digit character. -/
def digitValue (c : Char) : Option Nat :=
  if '0' ≤ c ∧ c ≤ '9' then some (c.toNat - 48)
  else if 'a' ≤ c ∧ c ≤ 'f' then some (c.toNat - 87)
  else if 'A' ≤ c ∧ c ≤ 'F' then some (c.toNat - 55)
  else none

/-- The value of a digit string in a base, after the value `acc` of the digits before it; none if a
character is no digit of the base. -/
def digitsValue (base : Nat) : Nat → Text → Option Nat
  | acc, [] => some acc
  | acc, c :: cs =>
    match digitValue c with
    | some d => if d < base then digitsValue base (acc * base + d) cs else none
    | none => none

/-- An unsigned numeric literal: decimal, `0x` or `0X` hexadecimal, or leading-`0` octal; none is a
malformed literal (30_encoding R80). -/
def literalValue : Text → Option Nat
  | [] => none
  | ['0'] => some 0
  | '0' :: 'x' :: d :: ds => digitsValue 16 0 (d :: ds)
  | '0' :: 'X' :: d :: ds => digitsValue 16 0 (d :: ds)
  | '0' :: d :: ds => digitsValue 8 0 (d :: ds)
  | d :: ds => digitsValue 10 0 (d :: ds)

/-! ### One line -/

/-- The mode and the literal of an operand token: a first `*` selects Indirect and is stripped
(30_encoding R79). -/
def splitMarker : Text → Mode × Text
  | '*' :: rest => (.indirect, rest)
  | t => (.immediate, t)

/-- The operand of a token: a malformed literal first, then the range 0 to 1023 (30_encoding R79 to R81). -/
def parseOperand (t : Text) : Except ErrorKind (Mode × Field10) :=
  match literalValue (splitMarker t).2 with
  | none => .error .malformedNumericLiteral
  | some v =>
    if fitsOperandField v then .ok ((splitMarker t).1, BitVec.ofNat 10 v) else .error .valueOutOfRange

/-- The operation of a mnemonic token, by exact case-sensitive match (30_encoding R78). -/
def lookupMnemonic (t : Text) : Option Op := Op.all.find? (fun o => mnemonic o == t)

/-- The instruction of an operation and its operand tokens. A present operand token is checked first,
for zero-operand mnemonics as well, and the token count last (30_encoding R82). -/
def assembleOperands (o : Op) (operands : List Text) : Except ErrorKind Instr :=
  match operands with
  | [] => if o.arity = 0 then .ok (o.instr .immediate 0) else .error .missingRequiredToken
  | t :: rest =>
    match parseOperand t with
    | .error e => .error e
    | .ok (m, a) =>
      if o.arity = 1 ∧ rest = [] then .ok (o.instr m a) else .error .unexpectedExtraToken

/-- The instruction of a line, none for a blank or comment-only one (30_encoding R77, R78, R82). -/
def assembleLine (line : Text) : Except ErrorKind (Option Instr) :=
  match codeTokens line with
  | [] => .ok none
  | t :: operands =>
    match lookupMnemonic t with
    | none => .error .unrecognizedMnemonic
    | some o =>
      match assembleOperands o operands with
      | .ok i => .ok (some i)
      | .error e => .error e

/-! ### A source text -/

/-- The instructions of the lines from line number `k` on; the first error ends the translation, and
every line counts in the line number (30_encoding R75, R77, R84, R88). -/
def assembleLines : Nat → List Text → Except TranslationError (List Instr)
  | _, [] => .ok []
  | k, line :: rest =>
    match assembleLine line with
    | .error e => .error { kind := e, line := k }
    | .ok none => assembleLines (k + 1) rest
    | .ok (some i) =>
      match assembleLines (k + 1) rest with
      | .error e => .error e
      | .ok is => .ok (i :: is)

/-- `translateSource(sourceText, instructionLimit)` (30_encoding R75): the size limit is checked before any
line is parsed and reports the count as its line (R83). -/
def translateSource (source : Text) (instructionLimit : Nat) : Except TranslationError (List IWord) :=
  let lines := linesOf source
  if instructionLimit < lines.countP holdsCode then
    .error { kind := .sizeLimitExceeded, line := lines.countP holdsCode }
  else
    match assembleLines 0 lines with
    | .error e => .error e
    | .ok is => .ok (is.map encode)

/-- The translation for a block: `instructionLimit` is its IMEM_WORDS (30_encoding R75, decision D6 of the
spec). The words are loaded from slot 0 by `loadInstructions`, which pads the rest with 0. -/
def translateForBlock (c : Config) (source : Text) : Except TranslationError (List IWord) :=
  translateSource source c.imemWords

end Sys2Proof.Machine
end

