-- ==== Sys2Proof/Machine/Images.lean ====
section
/-! DEFINITION. Program and data images as bytes (spec/20_memory.md R41). The byte order belongs to the
host's loader alone, as its parameter IMAGE_BYTE_ORDER (spec/00_scope.md R6; log entry 13). -/

namespace Sys2Proof.Machine

/-- IMAGE_BYTE_ORDER (00_scope R6). -/
inductive ByteOrder where
  | littleEndian
  | bigEndian
  deriving DecidableEq, Repr

/-- The 16-bit word of two bytes in the order of the image. -/
def iwordOfBytes (o : ByteOrder) (b0 b1 : BitVec 8) : IWord :=
  match o with
  | .littleEndian => b1 ++ b0
  | .bigEndian => b0 ++ b1

/-- The two bytes of a 16-bit word in the order of the image. -/
def bytesOfIWord (o : ByteOrder) (w : IWord) : List (BitVec 8) :=
  match o with
  | .littleEndian => [w.extractLsb' 0 8, w.extractLsb' 8 8]
  | .bigEndian => [w.extractLsb' 8 8, w.extractLsb' 0 8]

/-- The 32-bit word of four bytes in the order of the image. -/
def wordOfBytes (o : ByteOrder) (b0 b1 b2 b3 : BitVec 8) : Word :=
  match o with
  | .littleEndian => b3 ++ b2 ++ b1 ++ b0
  | .bigEndian => b0 ++ b1 ++ b2 ++ b3

/-- The four bytes of a 32-bit word in the order of the image. -/
def bytesOfWord (o : ByteOrder) (w : Word) : List (BitVec 8) :=
  match o with
  | .littleEndian => [w.extractLsb' 0 8, w.extractLsb' 8 8, w.extractLsb' 16 8, w.extractLsb' 24 8]
  | .bigEndian => [w.extractLsb' 24 8, w.extractLsb' 16 8, w.extractLsb' 8 8, w.extractLsb' 0 8]

/-- The instruction words of an image, none where its last word is incomplete (log entry 13). -/
def instructionImage (o : ByteOrder) : List (BitVec 8) → Option (List IWord)
  | [] => some []
  | b0 :: b1 :: rest => (instructionImage o rest).map (fun ws => iwordOfBytes o b0 b1 :: ws)
  | [_] => none

/-- The data words of an image, none where its last word is incomplete (log entry 13). -/
def dataImage (o : ByteOrder) : List (BitVec 8) → Option (List Word)
  | [] => some []
  | b0 :: b1 :: b2 :: b3 :: rest => (dataImage o rest).map (fun ws => wordOfBytes o b0 b1 b2 b3 :: ws)
  | [_] => none
  | [_, _] => none
  | [_, _, _] => none

end Sys2Proof.Machine
end

