-- ==== Sys2Proof/Machine/Commands.lean ====
section
/-! DEFINITION. The host commands, their outcomes and responses, and the end of a run
(spec/60_exceptions.md R113 to R121, spec/70_reset_and_hazards.md R138, R140). -/

namespace Sys2Proof.Machine

/-- The host commands (60_exceptions R113, R116 to R118). -/
inductive Command where
  | start
  | stop
  | step
  | loadInstructions (img : List IWord)
  | loadData (img : List Word)
  deriving DecidableEq, Repr

/-- A command is accepted when no fault is recorded (60_exceptions R114) and the run state is the one it
is legal in; else it faults before it changes anything (R121). -/
def accept (s : State) (legal : RunState) (cause : UsageCause) (r : Result) : Result :=
  match s.fault with
  | some f => raise f
  | none => if s.run = legal then r else raise (.usage cause)

/-- `start()` (60_exceptions R116). -/
def hostStart (s : State) : Result := accept s .stopped .startWhileRunning (.next s.started)

/-- `stop()` (60_exceptions R117). -/
def hostStop (s : State) : Result := accept s .running .stopWhileStopped (.next s.halt)

/-- `loadInstructions(img)` (60_exceptions R118): the whole array is replaced, a short image padded with
0. An image longer than the array is refused (log entry 11). -/
def hostLoadInstructions (img : List IWord) (s : State) : Result :=
  accept s .stopped (.loadWhileRunning .instruction)
    (if img.length ≤ s.cfg.imemWords then .next { s with imem := Memory.ofImage img }
     else .refused (.imageTooLong .instruction s.cfg.imemWords))

/-- `loadData(img)` (60_exceptions R118). -/
def hostLoadData (img : List Word) (s : State) : Result :=
  accept s .stopped (.loadWhileRunning .data)
    (if img.length ≤ s.cfg.dmemWords then .next { s with dmem := Memory.ofImage img }
     else .refused (.imageTooLong .data s.cfg.dmemWords))

/-- The outcome of a command: a new state, or a fault (60_exceptions R113). -/
def issue (c : Command) (s : State) : Result :=
  match c with
  | .start => hostStart s
  | .stop => hostStop s
  | .step => Sys2Proof.Machine.step s
  | .loadInstructions img => hostLoadInstructions img s
  | .loadData img => hostLoadData img s

/-- What the host is told (30_encoding R71, 60_exceptions R113, R114). -/
inductive Response where
  /-- A command other than `step` took effect. -/
  | done
  /-- `step` returned `Continue`. -/
  | stepContinue
  /-- `step` returned `Halted`: no further steps should be taken. -/
  | stepHalted
  /-- The command ended in this fault, which is now recorded. -/
  | faulted (f : Fault)
  /-- The command had no effect, because this fault was recorded before. -/
  | ignored (f : Fault)
  /-- The model gives this command no meaning. -/
  | refused (r : Refusal)
  deriving DecidableEq, Repr

/-- The signal of a step that did not fault (30_encoding R70): `Halted` when the block has stopped. -/
def signalOf (t : State) : Response :=
  match t.run with
  | .stopped => .stepHalted
  | .running => .stepContinue

/-- The response to a command that took effect. -/
def responseOf (c : Command) (t : State) : Response :=
  match c with
  | .start => .done
  | .stop => .done
  | .step => signalOf t
  | .loadInstructions _ => .done
  | .loadData _ => .done

/-- Apply one command: the new state and the response. A fault is recorded and is final: a later command
has no effect (60_exceptions R114, R120; log entry 6). -/
def serve (c : Command) (s : State) : State × Response :=
  match s.fault with
  | some f => (s, .ignored f)
  | none =>
    match issue c s with
    | .next t => (t, responseOf c t)
    | .fault f => (s.recordFault f, .faulted f)
    | .refused r => (s, .refused r)

/-- Apply commands one at a time, each complete before the next begins (60_exceptions R120). -/
def serveAll : List Command → State → State
  | [], s => s
  | c :: cs, s => serveAll cs (serve c s).1

/-- The responses to commands applied one at a time. -/
def responses : List Command → State → List Response
  | [], _ => []
  | c :: cs, s => (serve c s).2 :: responses cs (serve c s).1

/-- The boot sequence up to the first step: load, load, start (70_reset R138). -/
def bootCommands (prog : List IWord) (data : List Word) : List Command :=
  [.loadInstructions prog, .loadData data, .start]

/-- How a run ends (70_reset R140), with its last state. A host's `stop()` is a command of its own. -/
inductive RunEnd where
  /-- A step returned `Halted`. -/
  | normal (s : State)
  /-- A step faulted. -/
  | abnormal (f : Fault) (s : State)
  /-- Neither happened within the steps allowed; a hang never ends otherwise. -/
  | unfinished (s : State)
  deriving DecidableEq, Repr

/-- Call `step()` until it returns `Halted` or faults, at most `n` times (70_reset R138, R140). -/
def runToEnd : Nat → State → RunEnd
  | 0, s => .unfinished s
  | n + 1, s =>
    match serve .step s with
    | (t, .stepHalted) => .normal t
    | (t, .faulted f) => .abnormal f t
    | (t, .ignored f) => .abnormal f t
    | (t, .stepContinue) => runToEnd n t
    | (t, .done) => .unfinished t
    | (t, .refused _) => .unfinished t

end Sys2Proof.Machine
end

