-- ==== Sys2Proof/Machine/Inspect.lean ====
section
/-! DEFINITION. The read-only inspection surface (spec/60_exceptions.md R119). -/

namespace Sys2Proof.Machine

/-- The snapshot a host reads between commands, with the memories the model's observation adds
(60_exceptions R119). -/
structure Inspection where
  pc : Word
  acc : Word
  zf : Bool
  cf : Bool
  irRaw : IWord
  /-- The decoded-mnemonic form of `ir` (30_encoding R74). -/
  irText : Option Text
  run : RunState
  steps : Nat
  fault : Option Fault
  imem : List IWord
  dmem : List Word
  deriving DecidableEq, Repr

/-- The words of an array of `n` words. -/
def Memory.toArrayList {w : Nat} (n : Nat) (m : Memory w) : List (BitVec w) :=
  (List.range n).map (fun a => Memory.read m a)

/-- The inspection surface of a state. -/
def inspect (s : State) : Inspection :=
  { pc := s.pc, acc := s.acc, zf := s.zf, cf := s.cf, irRaw := s.ir, irText := disassemble s.ir,
    run := s.run, steps := s.steps, fault := s.fault,
    imem := Memory.toArrayList s.cfg.imemWords s.imem,
    dmem := Memory.toArrayList s.cfg.dmemWords s.dmem }

end Sys2Proof.Machine
end

