-- ==== Sys2Proof/Machine/Signals.lean ====
section
/-! DEFINITION. The decoded control signals, one record per operation, and the execute phase they determine
(spec/30_encoding.md R69). exec follows the instructions' own rules, which govern where the two differ; that
they never differ is an obligation. -/

namespace Sys2Proof.Machine

/-- The function whose output is written to the accumulator (R69, column `alu`). -/
inductive AluFunction where
  | op2
  | loaded
  | add
  | sub
  | inc
  | dec
  | and
  | or
  | xor
  | not
  | shl
  | shr
  deriving DecidableEq, Repr

/-- The data-memory access beyond the multiplexer's own (R69, column `mem`). -/
inductive MemAccess where
  | idle
  | read
  | write
  deriving DecidableEq, Repr

/-- When the handler writes the pc (R69, column "pc in handler"). -/
inductive PcWrite where
  | never
  | always
  | ifZero
  | ifNotZero
  | ifNotCarry
  deriving DecidableEq, Repr

/-- What becomes of the run (R69, column `run`). -/
inductive RunSignal where
  | keep
  | stop
  | fault
  deriving DecidableEq, Repr

/-- One row of the table of R69. -/
structure Signals where
  /-- `Operand()` is called. -/
  operand : Bool
  alu : Option AluFunction
  zf : Bool
  cf : Bool
  mem : MemAccess
  pc : PcWrite
  run : RunSignal
  deriving DecidableEq, Repr

/-- The signals of an operation that writes the ALU output and the zero flag. -/
def aluSignals (operand : Bool) (f : AluFunction) (cf : Bool) : Signals :=
  { operand := operand, alu := some f, zf := true, cf := cf, mem := .idle, pc := .never, run := .keep }

/-- The signals of a jump. -/
def jumpSignals (p : PcWrite) : Signals :=
  { operand := true, alu := none, zf := false, cf := false, mem := .idle, pc := p, run := .keep }

/-- The signals of an operation without operand that only leaves its mark on the run. -/
def runSignals (r : RunSignal) : Signals :=
  { operand := false, alu := none, zf := false, cf := false, mem := .idle, pc := .never, run := r }

/-- The table of R69; the row Illegal is that of no operation. -/
def signalsOf : Option Op → Signals
  | none => runSignals .fault
  | some .nop => runSignals .keep
  | some .load => aluSignals true .op2 false
  | some .store =>
    { operand := true, alu := none, zf := false, cf := false, mem := .write, pc := .never, run := .keep }
  | some .loadind => { aluSignals true .loaded false with mem := .read }
  | some .add => aluSignals true .add true
  | some .sub => aluSignals true .sub true
  | some .inc => aluSignals false .inc true
  | some .dec => aluSignals false .dec true
  | some .and => aluSignals true .and false
  | some .or => aluSignals true .or false
  | some .xor => aluSignals true .xor false
  | some .not => aluSignals false .not false
  | some .shl => aluSignals true .shl true
  | some .shr => aluSignals true .shr true
  | some .jmp => jumpSignals .always
  | some .jz => jumpSignals .ifZero
  | some .jnz => jumpSignals .ifNotZero
  | some .jc => jumpSignals .ifNotCarry
  | some .jnc => jumpSignals .ifNotCarry
  | some .hlt => runSignals .stop

/-- The ALU output, from the old accumulator, the resolved operand and the word read (R69, column `alu`). -/
def AluFunction.output (f : AluFunction) (old v loaded : Word) : Word :=
  match f with
  | .op2 => v
  | .loaded => loaded
  | .add => old + v
  | .sub => old - v
  | .inc => old + 1
  | .dec => old - 1
  | .and => old &&& v
  | .or => old ||| v
  | .xor => old ^^^ v
  | .not => logicalNot old
  | .shl => old <<< shiftCount v
  | .shr => old >>> shiftCount v

/-- The carry of the functions that have one (10_state R24), false for the others. -/
def AluFunction.carry (f : AluFunction) (old v : Word) : Bool :=
  match f with
  | .add => addCarry old v
  | .sub => subBorrow old v
  | .inc => incCarry old
  | .dec => decBorrow old
  | .shl => shlCarry old (shiftCount v)
  | .shr => shrCarry old (shiftCount v)
  | .op2 => false
  | .loaded => false
  | .and => false
  | .or => false
  | .xor => false
  | .not => false

/-- Whether the handler writes the pc. -/
def PcWrite.taken (p : PcWrite) (s : State) : Bool :=
  match p with
  | .never => false
  | .always => true
  | .ifZero => s.zf
  | .ifNotZero => !s.zf
  | .ifNotCarry => !s.cf

/-- The register writes that the signals ask for, from the resolved operand and the word read. -/
def Signals.writeRegisters (g : Signals) (v loaded : Word) (s : State) : State :=
  { s with
    acc := (g.alu.map (fun f => f.output s.acc v loaded)).getD s.acc
    zf := if g.zf then zeroFlag ((g.alu.map (fun f => f.output s.acc v loaded)).getD s.acc) else s.zf
    cf := if g.cf then (g.alu.map (fun f => f.carry s.acc v)).getD s.cf else s.cf
    pc := if g.pc.taken s then v - 1 else s.pc
    run := if g.run = .stop then .stopped else s.run }

/-- The execute phase after the operand is resolved. -/
def Signals.apply (g : Signals) (v : Word) (s : State) : Result :=
  match g.mem with
  | .idle => .next (g.writeRegisters v 0 s)
  | .read =>
    match memRead s v with
    | .ok loaded => .next (g.writeRegisters v loaded s)
    | .error f => raise f
  | .write =>
    match memWrite s v s.acc with
    | .ok t => .next (g.writeRegisters v 0 t)
    | .error f => raise f

/-- The execute phase that the signals determine, for an instruction with or without an operand. -/
def Signals.execute (g : Signals) (operand : Option (Mode × Field10)) (s : State) : Result :=
  match operand with
  | some (m, a) => withOperand m a s (fun v => g.apply v s)
  | none => g.apply 0 s

end Sys2Proof.Machine
end

