-- ==== Sys2Proof/Safety.lean ====
section
/-! DEFINITION. The terms in which claims speak of states and runs: well-formed states, operands in
range, and runs free of faults. -/

namespace Sys2Proof.Machine

/-- The state is one the spec gives the block: its parameters are legal, both memories are in canonical
form, and every listed word lies inside its array. -/
abbrev State.wf (s : State) : Prop :=
  s.cfg.wf = true ∧ Memory.wf s.imem ∧ Memory.within s.cfg.imemWords s.imem ∧
    Memory.wf s.dmem ∧ Memory.within s.cfg.dmemWords s.dmem

/-- The word in the slot of the program counter, which the next fetch reads (20_memory R38). -/
abbrev State.fetched (s : State) : IWord := Memory.read s.imem s.pc.toNat

/-- The step cycle may fetch: the block is Running, no fault is recorded, and the pc is in range. -/
abbrev State.ready (s : State) : Prop :=
  s.fault = none ∧ s.run = .running ∧ s.pc.toNat < s.cfg.imemWords

/-- The value an operand stands for, by 30_encoding R66, where it is in range. -/
def operandValue (m : Mode) (a : Field10) (s : State) : Word :=
  match m with
  | .immediate => BitVec.ofNat 32 a.toNat
  | .indirect => Memory.read s.dmem a.toNat

/-- The multiplexer does not fault: in Indirect mode the field is below DMEM_WORDS (60_exceptions R124). -/
abbrev operandInRange (m : Mode) (a : Field10) (s : State) : Prop :=
  m = .indirect → a.toNat < s.cfg.dmemWords

/-- The zero flag tracks the accumulator (10_state R25). -/
abbrev State.zeroTracks (s : State) : Prop := s.zf = decide (s.acc = 0)

/-- `n` steps from a state all answer a next state, so none of them faults. -/
def runsSafely : Nat → State → Bool
  | 0, _ => true
  | n + 1, s =>
    match step s with
    | .next t => runsSafely n t
    | .fault _ => false
    | .refused _ => false

end Sys2Proof.Machine
end

