-- ==== Sys2Proof/Certificates/Slice0/Obligations.lean ====
section
/-! DEFINITION. The statements for the provers, from the numbered rules of spec/.

Every statement holds for every state, so for every value of the OPEN parameters, which the state carries
(log entries 1 and 2). -/

open Sys2Proof Sys2Proof.Machine

/-! ## Encoding -/

/-- Decoding the word of an instruction gives the instruction back, with every operand at every value
(30_encoding R73, R86). -/
def Obligations.DecodeOfEncodeIsTheInstruction : Prop :=
  ∀ i : Instr, decode (encode i) = .instr i

/-- Unpacking a packed triple gives the triple, and packing an unpacked word gives the word, for every
triple and every word (30_encoding R73). -/
def Obligations.PackAndUnpackAreInverse : Prop :=
  (∀ f : Fields, unpack (pack f) = f) ∧ ∀ w : IWord, pack (unpack w) = w

/-- The fields stand where 30_encoding R54 to R56 put them, said in arithmetic: `w = a + 1024 m + 2048 opc`. -/
def Obligations.FieldsStandAtTheirBits : Prop :=
  (∀ f : Fields, (pack f).toNat = f.a.toNat + 1024 * f.m.toNat + 2048 * f.opc.toNat) ∧
  ∀ w : IWord, (unpack w).opc.toNat = w.toNat / 2048 ∧ (unpack w).m.toNat = w.toNat / 1024 % 2 ∧
    (unpack w).a.toNat = w.toNat % 1024

/-- The opcode table (30_encoding R60, R61): the twenty operations have the codes 0 to 19, the mnemonics and
the arities of the table, in its order; a word decodes to an instruction of an operation exactly when
`w & 0xF800 == opc << 11`, with the mode and field of its bits, and is illegal exactly when its code is
20 or more. -/
def Obligations.OpcodeTableRowsMatch : Prop :=
  Op.all.map (fun o => (codeOfOp o).toNat) = List.range 20 ∧
  Op.all.map mnemonic = ["NOP", "LOAD", "STORE", "LOADIND", "ADD", "SUB", "INC", "DEC", "AND", "OR", "XOR",
    "NOT", "SHL", "SHR", "JMP", "JZ", "JNZ", "JC", "JNC", "HLT"].map String.toList ∧
  Op.all.map Op.arity = [0, 1, 1, 1, 1, 1, 0, 0, 1, 1, 1, 0, 1, 1, 1, 1, 1, 1, 1, 0] ∧
  (∀ w : IWord, 20 ≤ w.toNat / 2048 ↔ ∃ c, decode w = .illegalOpcode c) ∧
  ∀ (w : IWord) (o : Op),
    ((∃ i, decode w = .instr i ∧ i.op = o) ↔ w &&& 0xF800 = (codeOfOp o).setWidth 16 <<< 11) ∧
    (w &&& 0xF800 = (codeOfOp o).setWidth 16 <<< 11 →
      decode w = .instr (o.instr (if w.getLsbD 10 then .indirect else .immediate) (w.extractLsb' 0 10)))

/-- Every word is exactly one of a defined instruction and illegal, by whether it is below 0xA000; the words
of NOP are those with code 0, and no other instruction executes as a no-op in every state (30_encoding
R64). -/
def Obligations.EveryWordIsDefinedOrIllegal : Prop :=
  (∀ w : IWord,
    (w.toNat < 0xA000 → ∃ i, decode w = .instr i) ∧
    (0xA000 ≤ w.toNat → decode w = .illegalOpcode (w.extractLsb' 11 5)) ∧
    (decode w = .instr .nop ↔ w.toNat < 2048)) ∧
  ∀ i : Instr, (∀ s, exec i s = .next s) → i = .nop

/-- Mode and operand bits of a zero-operand word are ignored: it decodes as the word with zeros there,
its execution neither depends on data memory nor changes it, and the encoder writes zeros (30_encoding R63). -/
def Obligations.ZeroOperandBitsAreIgnored : Prop :=
  ∀ (w : IWord) (c : Nat), c ∈ [0, 6, 7, 11, 19] → w.toNat / 2048 = c →
    ∃ i : Instr, decode w = .instr i ∧ decode (BitVec.ofNat 16 (2048 * c)) = .instr i ∧
      (encode i).toNat = 2048 * c ∧
      ∀ (s : State) (d : Memory 32), ∃ t, exec i s = .next t ∧ t.dmem = s.dmem ∧
        exec i { s with dmem := d } = .next { t with dmem := d }

/-- A few words of 95_test_vectors L2.9, one of each family, decode as listed there. -/
def Obligations.ListedWordsDecode : Prop :=
  decode 0x0000 = .instr .nop ∧ decode 0x0805 = .instr (.load .immediate 5) ∧
  decode 0x0C00 = .instr (.load .indirect 0) ∧ decode 0x13FF = .instr (.store .immediate 1023) ∧
  decode 0x1C04 = .instr (.loadind .indirect 4) ∧ decode 0x2003 = .instr (.add .immediate 3) ∧
  decode 0x37FF = .instr .inc ∧ decode 0x5800 = .instr .not ∧ decode 0x601F = .instr (.shl .immediate 31) ∧
  decode 0x7C00 = .instr (.jz .indirect 0) ∧ decode 0x8805 = .instr (.jc .immediate 5) ∧
  decode 0x9FFF = .instr .hlt ∧ decode 0xA000 = .illegalOpcode 20 ∧ decode 0xF800 = .illegalOpcode 31

/-- The round trip holds under every opcode map whose lookup undoes its codes: the OPCODE_MAP parameter of
a model that reads foreign binaries (00_scope R12; log entry 10). -/
def Obligations.RoundTripUnderEveryOpcodeMap : Prop :=
  ∀ (lookup : BitVec 5 → Option Op) (code : Op → BitVec 5), (∀ o, lookup (code o) = some o) →
    ∀ i : Instr, decodeWith lookup (encodeWith code i) = .instr i

/-! ## The toolchain's text and images -/

/-- Assembling the printed form of an instruction gives its word (30_encoding R74 to R81, R86). -/
def Obligations.DisassemblyAssemblesBack : Prop :=
  ∀ (i : Instr) (n : Nat), 1 ≤ n → translateSource (disassembleInstr i) n = .ok [encode i]

/-- A translated program fits the limit, and each of its words is one an assembler may emit: a defined code,
and zeros in the ignored fields (30_encoding R62, R83, R86). Translated for a Stopped block without a fault,
with the limit IMEM_WORDS, it always loads: the words stand from slot 0 on, every other slot holds 0, and
nothing else changes (30_encoding R75, 60_exceptions R118). -/
def Obligations.TranslatedWordsAreCanonical : Prop :=
  (∀ (source : Text) (n : Nat) (ws : List IWord), translateSource source n = .ok ws →
    ws.length ≤ n ∧ ∀ w ∈ ws, IWord.isCanonical w = true) ∧
  ∀ (source : Text) (s : State) (ws : List IWord), s.fault = none → s.run = .stopped →
    translateForBlock s.cfg source = .ok ws →
      ∃ t, serve (.loadInstructions ws) s = (t, .done) ∧ t = { s with imem := t.imem } ∧
        ws.length ≤ s.cfg.imemWords ∧ ∀ k, Memory.read t.imem k = ws.getD k 0

/-- A literal above 1023 is out of range in either mode and one up to 1023 becomes the field unchanged; in
particular every one-operand mnemonic takes exactly the decimal operands 0 to 1023 (30_encoding R81). -/
def Obligations.OperandLiteralRange : Prop :=
  (∀ (t : Text) (v : Nat), literalValue (splitMarker t).2 = some v →
    parseOperand t =
      if v ≤ 1023 then .ok ((splitMarker t).1, BitVec.ofNat 10 v) else .error .valueOutOfRange) ∧
  ∀ (o : Op) (m : Mode) (v : Nat), o.arity = 1 →
    translateSource (mnemonic o ++ ' ' :: (modeMarker m ++ Nat.toDigits 10 v)) 1 =
      if v ≤ 1023 then .ok [encode (o.instr m (BitVec.ofNat 10 v))]
      else .error { kind := .valueOutOfRange, line := 0 }

/-- The order of the checks on a line: mnemonic, then the operand token's literal and range, then the token
count (30_encoding R82, with its own examples). -/
def Obligations.LineCheckOrder : Prop :=
  (∀ (line t : Text) (operands : List Text), codeTokens line = t :: operands →
    (lookupMnemonic t = none → assembleLine line = .error .unrecognizedMnemonic) ∧
    ∀ o : Op, lookupMnemonic t = some o →
      (∀ (x : Text) (rest : List Text), operands = x :: rest →
        (literalValue (splitMarker x).2 = none → assembleLine line = .error .malformedNumericLiteral) ∧
        ∀ v : Nat, literalValue (splitMarker x).2 = some v →
          (1023 < v → assembleLine line = .error .valueOutOfRange) ∧
          (v ≤ 1023 → o.arity < operands.length → assembleLine line = .error .unexpectedExtraToken)) ∧
      (operands.length < o.arity → assembleLine line = .error .missingRequiredToken)) ∧
  assembleLine "HLT 5".toList = .error .unexpectedExtraToken ∧
  assembleLine "HLT x".toList = .error .malformedNumericLiteral ∧
  assembleLine "LOAD".toList = .error .missingRequiredToken ∧
  assembleLine "LOAD 5 6".toList = .error .unexpectedExtraToken ∧
  assembleLine "LOAD 2000 6".toList = .error .valueOutOfRange

/-- Where a translation error is reported: the size limit comes before any line and reports the count of
lines with code; every other error is that of the first failing line, at its 0-based index among all lines
(30_encoding R83, R84). -/
def Obligations.TranslationErrorLines : Prop :=
  ∀ (source : Text) (n : Nat),
    (n < (linesOf source).countP holdsCode →
      translateSource source n = .error { kind := .sizeLimitExceeded, line := (linesOf source).countP holdsCode }) ∧
    ((linesOf source).countP holdsCode ≤ n → ∀ e : TranslationError, translateSource source n = .error e →
      (∃ line, (linesOf source)[e.line]? = some line ∧ assembleLine line = .error e.kind) ∧
      ∀ (k : Nat) (line : Text), k < e.line → (linesOf source)[k]? = some line →
        ∃ r, assembleLine line = .ok r)

/-- The instruction of the j-th line with code stands in slot j; blank and comment-only lines give no
instruction and take no slot (30_encoding R77, R88). -/
def Obligations.BlankLinesTakeNoSlot : Prop :=
  (∀ line : Text, codeTokens line = [] → assembleLine line = .ok none) ∧
  ∀ (source : Text) (n : Nat) (ws : List IWord), translateSource source n = .ok ws →
    ws.length = ((linesOf source).filter holdsCode).length ∧
    ∀ (j : Nat) (line : Text), ((linesOf source).filter holdsCode)[j]? = some line →
      ∃ i, assembleLine line = .ok (some i) ∧ Memory.read (Memory.ofImage ws) j = encode i

/-- In either byte order, the bytes of a program or data image give back its words (20_memory R41; the byte
order is the host loader's parameter, log entry 13). -/
def Obligations.ImageBytesRoundTrip : Prop :=
  ∀ o : ByteOrder,
    (∀ ws : List IWord, instructionImage o (ws.flatMap (bytesOfIWord o)) = some ws) ∧
    ∀ ws : List Word, dataImage o (ws.flatMap (bytesOfWord o)) = some ws

/-! ## What each instruction does -/

/-- LOAD (40_load_store R89). -/
def Obligations.LoadWritesTheOperand : Prop :=
  ∀ (m : Mode) (a : Field10) (s : State),
    (operandInRange m a s → exec (.load m a) s =
      .next { s with acc := operandValue m a s, zf := decide (operandValue m a s = 0) }) ∧
    (¬ operandInRange m a s → exec (.load m a) s = .fault (.dataAddress (BitVec.ofNat 32 a.toNat) s.pc)) ∧
    exec (.load .indirect a) s = exec (.loadind .immediate a) s

/-- STORE (40_load_store R90): the word at the resolved address becomes the accumulator, every other word
reads as before, and nothing but data memory changes. -/
def Obligations.StoreWritesTheAddressedWord : Prop :=
  ∀ (m : Mode) (a : Field10) (s : State),
    (operandInRange m a s → (operandValue m a s).toNat < s.cfg.dmemWords →
      ∃ t, exec (.store m a) s = .next t ∧ t = { s with dmem := t.dmem } ∧
        (Memory.wf s.dmem → Memory.read t.dmem (operandValue m a s).toNat = s.acc ∧
          ∀ b, b ≠ (operandValue m a s).toNat → Memory.read t.dmem b = Memory.read s.dmem b)) ∧
    (¬ operandInRange m a s → exec (.store m a) s = .fault (.dataAddress (BitVec.ofNat 32 a.toNat) s.pc)) ∧
    (operandInRange m a s → s.cfg.dmemWords ≤ (operandValue m a s).toNat →
      exec (.store m a) s = .fault (.dataAddress (operandValue m a s) s.pc))

/-- LOADIND (40_load_store R91). -/
def Obligations.LoadindReadsThroughTheOperand : Prop :=
  ∀ (m : Mode) (a : Field10) (s : State),
    (operandInRange m a s → (operandValue m a s).toNat < s.cfg.dmemWords →
      exec (.loadind m a) s =
        .next { s with
          acc := Memory.read s.dmem (operandValue m a s).toNat,
          zf := decide (Memory.read s.dmem (operandValue m a s).toNat = 0) }) ∧
    (¬ operandInRange m a s → exec (.loadind m a) s = .fault (.dataAddress (BitVec.ofNat 32 a.toNat) s.pc)) ∧
    (operandInRange m a s → s.cfg.dmemWords ≤ (operandValue m a s).toNat →
      exec (.loadind m a) s = .fault (.dataAddress (operandValue m a s) s.pc))

/-- ADD (41_arithmetic R93): the sum modulo 2^32, and the carry out of it. -/
def Obligations.AddWritesSumAndCarry : Prop :=
  ∀ (m : Mode) (a : Field10) (s : State),
    (operandInRange m a s → exec (.add m a) s =
      .next { s with
        acc := BitVec.ofNat 32 (s.acc.toNat + (operandValue m a s).toNat),
        cf := decide (2 ^ 32 ≤ s.acc.toNat + (operandValue m a s).toNat),
        zf := decide ((s.acc.toNat + (operandValue m a s).toNat) % 2 ^ 32 = 0) }) ∧
    (¬ operandInRange m a s → exec (.add m a) s = .fault (.dataAddress (BitVec.ofNat 32 a.toNat) s.pc))

/-- SUB (41_arithmetic R94): the difference modulo 2^32, and the borrow (true when one occurred). -/
def Obligations.SubWritesDifferenceAndBorrow : Prop :=
  ∀ (m : Mode) (a : Field10) (s : State),
    (operandInRange m a s → exec (.sub m a) s =
      .next { s with
        acc := BitVec.ofInt 32 ((s.acc.toNat : Int) - ((operandValue m a s).toNat : Int)),
        cf := decide (s.acc.toNat < (operandValue m a s).toNat),
        zf := decide (s.acc = operandValue m a s) }) ∧
    (¬ operandInRange m a s → exec (.sub m a) s = .fault (.dataAddress (BitVec.ofNat 32 a.toNat) s.pc))

/-- INC and DEC (41_arithmetic R95, R96), in every state. -/
def Obligations.IncAndDecStepByOne : Prop :=
  ∀ s : State,
    exec .inc s = .next { s with
      acc := BitVec.ofNat 32 (s.acc.toNat + 1), cf := decide (s.acc.toNat = 2 ^ 32 - 1),
      zf := decide (s.acc.toNat = 2 ^ 32 - 1) } ∧
    exec .dec s = .next { s with
      acc := BitVec.ofInt 32 ((s.acc.toNat : Int) - 1), cf := decide (s.acc.toNat = 0),
      zf := decide (s.acc.toNat = 1) }

/-- AND, OR and XOR (42_logic R97, R98, R99), bit by bit; the carry is unchanged. -/
def Obligations.BitwiseLogicResults : Prop :=
  ∀ (m : Mode) (a : Field10) (s : State),
    (operandInRange m a s →
      (∃ r : Word, exec (.and m a) s = .next { s with acc := r, zf := decide (r = 0) } ∧
        ∀ k < 32, r.getLsbD k = (s.acc.getLsbD k && (operandValue m a s).getLsbD k)) ∧
      (∃ r : Word, exec (.or m a) s = .next { s with acc := r, zf := decide (r = 0) } ∧
        ∀ k < 32, r.getLsbD k = (s.acc.getLsbD k || (operandValue m a s).getLsbD k)) ∧
      ∃ r : Word, exec (.xor m a) s = .next { s with acc := r, zf := decide (r = 0) } ∧
        ∀ k < 32, r.getLsbD k = (s.acc.getLsbD k ^^ (operandValue m a s).getLsbD k)) ∧
    (¬ operandInRange m a s → ∀ i ∈ [Instr.and m a, .or m a, .xor m a],
      exec i s = .fault (.dataAddress (BitVec.ofNat 32 a.toNat) s.pc))

/-- NOT (42_logic R100): the logical negation, so twice maps every nonzero value to 1 and 0 to 0. -/
def Obligations.NotIsLogicalNegation : Prop :=
  ∀ s : State,
    (s.acc = 0 → exec .not s = .next { s with acc := 1, zf := false }) ∧
    (s.acc ≠ 0 → exec .not s = .next { s with acc := 0, zf := true }) ∧
    ∀ t, exec .not s = .next t →
      exec .not t = .next { s with acc := if s.acc = 0 then 0 else 1, zf := decide (s.acc = 0) }

/-- SHL (43_shift R101, R102): the count is the operand modulo 32, the result is truncated to 32 bits, and
the carry is the last bit shifted out, bit `32 - n` of the old accumulator, false for a count of 0. -/
def Obligations.ShlResultAndCarry : Prop :=
  ∀ (m : Mode) (a : Field10) (s : State),
    (operandInRange m a s → ∀ n, n = (operandValue m a s).toNat % 32 →
      exec (.shl m a) s = .next { s with
        acc := BitVec.ofNat 32 (s.acc.toNat * 2 ^ n),
        cf := decide (n ≠ 0 ∧ s.acc.toNat / 2 ^ (32 - n) % 2 = 1),
        zf := decide (s.acc.toNat * 2 ^ n % 2 ^ 32 = 0) }) ∧
    (¬ operandInRange m a s → exec (.shl m a) s = .fault (.dataAddress (BitVec.ofNat 32 a.toNat) s.pc))

/-- SHR (43_shift R101, R103): logical, with the carry bit `n - 1` of the old accumulator, false for a count
of 0. -/
def Obligations.ShrResultAndCarry : Prop :=
  ∀ (m : Mode) (a : Field10) (s : State),
    (operandInRange m a s → ∀ n, n = (operandValue m a s).toNat % 32 →
      exec (.shr m a) s = .next { s with
        acc := BitVec.ofNat 32 (s.acc.toNat / 2 ^ n),
        cf := decide (n ≠ 0 ∧ s.acc.toNat / 2 ^ (n - 1) % 2 = 1),
        zf := decide (s.acc.toNat < 2 ^ n) }) ∧
    (¬ operandInRange m a s → exec (.shr m a) s = .fault (.dataAddress (BitVec.ofNat 32 a.toNat) s.pc))

/-- JMP (44_control R105): the handler writes the target less one, modulo 2^32. -/
def Obligations.JmpWritesTargetLessOne : Prop :=
  ∀ (m : Mode) (a : Field10) (s : State),
    (operandInRange m a s → exec (.jmp m a) s = .next { s with pc := operandValue m a s - 1 }) ∧
    (¬ operandInRange m a s → exec (.jmp m a) s = .fault (.dataAddress (BitVec.ofNat 32 a.toNat) s.pc))

/-- JZ and JNZ (44_control R106, R107): exact complements by the zero flag. -/
def Obligations.JzAndJnzAreComplements : Prop :=
  ∀ (m : Mode) (a : Field10) (s : State),
    (operandInRange m a s → exec (.jz m a) s =
      .next { s with pc := if s.zf then operandValue m a s - 1 else s.pc }) ∧
    (operandInRange m a s → exec (.jnz m a) s =
      .next { s with pc := if s.zf then s.pc else operandValue m a s - 1 }) ∧
    (¬ operandInRange m a s → ∀ i ∈ [Instr.jz m a, .jnz m a],
      exec i s = .fault (.dataAddress (BitVec.ofNat 32 a.toNat) s.pc))

/-- JC and JNC (44_control R108, R109): both jump exactly when the carry flag is CLEAR, so they are the same
operation. -/
def Obligations.JcAndJncJumpOnClearCarry : Prop :=
  ∀ (m : Mode) (a : Field10) (s : State),
    (operandInRange m a s → exec (.jc m a) s =
      .next { s with pc := if s.cf then s.pc else operandValue m a s - 1 }) ∧
    (operandInRange m a s → exec (.jnc m a) s =
      .next { s with pc := if s.cf then s.pc else operandValue m a s - 1 }) ∧
    (¬ operandInRange m a s → ∀ i ∈ [Instr.jc m a, .jnc m a],
      exec i s = .fault (.dataAddress (BitVec.ofNat 32 a.toNat) s.pc)) ∧
    exec (.jc m a) s = exec (.jnc m a) s

/-- NOP changes nothing, and HLT stops the block and changes nothing else, in every state; the step around
NOP advances the pc and the counter, and the step around HLT the pc alone, after which a further step is a
usage fault (45_system R110, R111). -/
def Obligations.NopAndHltResults : Prop :=
  ∀ s : State, exec .nop s = .next s ∧ exec .hlt s = .next { s with run := .stopped } ∧
    (s.ready → decode s.fetched = .instr .nop →
      step s = .next { s with ir := s.fetched, pc := s.pc + 1, steps := s.steps + 1 }) ∧
    (s.ready → decode s.fetched = .instr .hlt →
      ∃ t, serve .step s = (t, .stepHalted) ∧
        t = { s with ir := s.fetched, pc := s.pc + 1, run := .stopped } ∧
        step t = .fault (.usage .stepWhileStopped))

/-- The table of decoded control signals determines the execute phase of all twenty operations; the operand is
resolved for exactly those with one, the flags written are those of the signals, and the row Illegal is that
of exactly the words that do not decode (30_encoding R69). -/
def Obligations.ControlSignalsDetermineExecution : Prop :=
  (∀ (i : Instr) (s : State), exec i s = (signalsOf (some i.op)).execute i.operand s) ∧
  (∀ i : Instr, (signalsOf (some i.op)).operand = i.operand.isSome) ∧
  (∀ o : Op, ((signalsOf (some o)).zf = true ↔ o ∈ Op.accWriters) ∧
    ((signalsOf (some o)).cf = true ↔ o ∈ Op.carryWriters)) ∧
  ∀ w : IWord, (signalsOf (lookupOp (unpack w).opc)).run = .fault ↔ ∃ c, decode w = .illegalOpcode c

/-! ## Frames -/

/-- The frame of the twelve instructions that write the accumulator (10_state R15, R24): only `acc`, `zf`
and, for the six of R22, `cf` may change; every word of both memories reads as before. -/
def Obligations.AccumulatorInstructionsFrame : Prop :=
  ∀ (i : Instr) (s t : State), i.op ∈ Op.accWriters → exec i s = .next t →
    t.pc = s.pc ∧ t.ir = s.ir ∧ t.run = s.run ∧ t.steps = s.steps ∧ t.fault = s.fault ∧ t.cfg = s.cfg ∧
    (i.op ∉ Op.carryWriters → t.cf = s.cf) ∧
    (∀ b, Memory.read t.imem b = Memory.read s.imem b) ∧ ∀ b, Memory.read t.dmem b = Memory.read s.dmem b

/-- The frame of STORE (40_load_store R90): no register or flag changes, and for the address its operand
resolves to, every other data word reads as before; instruction memory is unchanged. -/
def Obligations.StoreFrame : Prop :=
  ∀ (m : Mode) (a : Field10) (s t : State), exec (.store m a) s = .next t →
    t.acc = s.acc ∧ t.zf = s.zf ∧ t.cf = s.cf ∧ t.pc = s.pc ∧ t.ir = s.ir ∧ t.run = s.run ∧
    t.steps = s.steps ∧ t.fault = s.fault ∧ t.cfg = s.cfg ∧ t.imem = s.imem ∧
    (Memory.wf s.dmem → ∀ addr : Word, resolveOperand m a s = .ok addr →
      ∀ b, b ≠ addr.toNat → Memory.read t.dmem b = Memory.read s.dmem b)

/-- The frame of the five jumps, NOP and HLT (10_state R15, R24): neither the accumulator, nor a flag, nor a
word of either memory changes; only a jump writes the pc and only HLT the run state. -/
def Obligations.ControlInstructionsFrame : Prop :=
  ∀ (i : Instr) (s t : State), i.op ∈ Op.jumps ++ [.nop, .hlt] → exec i s = .next t →
    t.acc = s.acc ∧ t.zf = s.zf ∧ t.cf = s.cf ∧ t.ir = s.ir ∧ t.steps = s.steps ∧ t.fault = s.fault ∧
    t.cfg = s.cfg ∧ (i.op ∉ Op.jumps → t.pc = s.pc) ∧ (i.op ≠ .hlt → t.run = s.run) ∧
    (∀ b, Memory.read t.imem b = Memory.read s.imem b) ∧ ∀ b, Memory.read t.dmem b = Memory.read s.dmem b

/-! ## The step cycle -/

/-- A step of a ready block runs the decoded instruction (30_encoding R70): the execute phase from the state
with `ir` written, then the pc and, unless the block stopped, the counter; its fault is the step's. -/
def Obligations.StepRunsTheDecodedInstruction : Prop :=
  ∀ (s : State) (i : Instr), s.ready → decode s.fetched = .instr i →
    (∀ f, exec i { s with ir := s.fetched } = .fault f → step s = .fault f) ∧
    ∀ u, exec i { s with ir := s.fetched } = .next u → step s = .next { u with
      pc := u.pc + 1, steps := if u.run = .running then u.steps + 1 else u.steps }

/-- A step advances the pc by one unless the instruction is a jump, writes the fetched word to `ir`, and
counts unless it halted; `start()` sets the counter to 0 (10_state R18, R26, R28). -/
def Obligations.StepAdvancesPcAndCounter : Prop :=
  (∀ (s t : State) (i : Instr), step s = .next t → decode s.fetched = .instr i →
    (i.op ∉ Op.jumps → t.pc = s.pc + 1) ∧ t.ir = s.fetched ∧
    t.steps = if i = .hlt then s.steps else s.steps + 1) ∧
  ∀ s t : State, issue .start s = .next t → t.steps = 0 ∧ t.ir = s.ir

/-- A taken jump ends its step at the target, for every target; a target outside instruction memory faults
at the next fetch; a jump that is not taken ends at the next slot (10_state R18, 44_control R104). -/
def Obligations.JumpsLandOnTheirTarget : Prop :=
  ∀ (s : State) (m : Mode) (a : Field10) (i : Instr) (taken : Bool),
    (i, taken) ∈ [(Instr.jmp m a, true), (.jz m a, s.zf), (.jnz m a, !s.zf), (.jc m a, !s.cf),
      (.jnc m a, !s.cf)] →
    s.ready → decode s.fetched = .instr i → operandInRange m a s →
      ∃ t, step s = .next t ∧ t = { s with
          ir := s.fetched, pc := if taken then operandValue m a s else s.pc + 1, steps := s.steps + 1 } ∧
        (t.cfg.imemWords ≤ t.pc.toNat → step t = .fault (.pcRange t.pc))

/-- `Halted` is returned exactly when the instruction executed was HLT, `Continue` exactly when another one
completed (30_encoding R71). -/
def Obligations.HaltedExactlyAfterHlt : Prop :=
  ∀ s : State,
    ((serve .step s).2 = .stepHalted ↔ s.ready ∧ decode s.fetched = .instr .hlt) ∧
    ((serve .step s).2 = .stepContinue ↔
      ∃ i t, s.ready ∧ decode s.fetched = .instr i ∧ i ≠ .hlt ∧ step s = .next t) ∧
    ((serve .step s).2 ≠ .stepHalted → (serve .step s).2 ≠ .stepContinue →
      ∃ f, (serve .step s).2 = .faulted f ∨ (serve .step s).2 = .ignored f)

/-! ## Invariants and whole-machine rules -/

/-- Every step keeps a well-formed state well-formed: legal parameters, canonical memories, and no listed
word outside its array (the model's invariant on 10_state R30, R31). -/
def Obligations.StepKeepsWellFormed : Prop :=
  ∀ s t : State, s.wf → step s = .next t → t.wf

/-- Every sequence of host commands keeps a well-formed state well-formed, through faults and refusals. -/
def Obligations.CommandsKeepWellFormed : Prop :=
  ∀ (cs : List Command) (s : State), s.wf → (serveAll cs s).wf

/-- The power-on state of every legal choice of parameters is well-formed, and so is `State.reset`, whose
parameters are the model's choice (log entries 1 and 2). -/
def Obligations.PowerOnIsWellFormed : Prop :=
  (∀ c : Config, c.wf = true → (State.powerOn c).wf) ∧ State.reset.wf

/-- The zero flag is recomputed on every accumulator write and written by no other event but `start()`
(10_state R21). -/
def Obligations.ZeroFlagFollowsAccumulatorWrites : Prop :=
  (∀ (i : Instr) (s t : State), exec i s = .next t →
    (i.op ∈ Op.accWriters → t.zf = decide (t.acc = 0)) ∧
    (i.op ∉ Op.accWriters → t.zf = s.zf ∧ t.acc = s.acc)) ∧
  (∀ (s t : State) (i : Instr), step s = .next t → decode s.fetched = .instr i →
    t.zf = if i.op ∈ Op.accWriters then decide (t.acc = 0) else s.zf) ∧
  ∀ (c : Command) (s t : State), c ≠ .start → c ≠ .step → issue c s = .next t → t.zf = s.zf ∧ t.acc = s.acc

/-- The relation `zf == (acc == 0)` holds after every step that writes the accumulator, is kept by every
step, and holds after `start()` exactly when RESET_ZF is true; with RESET_ZF false, `start()` leaves `acc = 0`
with `zf` false, and every step that does not write the accumulator keeps that, so JZ does not jump and JNZ
does (10_state R25). -/
def Obligations.ZeroRelationIsKept : Prop :=
  (∀ (s t : State) (i : Instr), step s = .next t → decode s.fetched = .instr i → i.op ∈ Op.accWriters →
    t.zeroTracks) ∧
  (∀ s t : State, s.zeroTracks → step s = .next t → t.zeroTracks) ∧
  (∀ s t : State, issue .start s = .next t →
    (t.zeroTracks ↔ s.cfg.resetZF = true) ∧ (s.cfg.resetZF = false → t.acc = 0 ∧ t.zf = false)) ∧
  ∀ (s t : State) (i : Instr), s.acc = 0 → s.zf = false → step s = .next t → decode s.fetched = .instr i →
    i.op ∉ Op.accWriters →
      t.acc = 0 ∧ t.zf = false ∧ (i.op = .jz → t.pc = s.pc + 1) ∧
      ∀ m a, i = .jnz m a → t.pc = operandValue m a s

/-- ADD, SUB, INC, DEC, SHL and SHR write the carry on every execution, whatever it was; every other
instruction leaves it (10_state R22). -/
def Obligations.CarryWrittenByTheSixAlone : Prop :=
  ∀ (i : Instr) (s : State),
    (i.op ∈ Op.carryWriters → ∀ (c : Bool) (t : State), exec i s = .next t →
      exec i { s with cf := c } = .next t) ∧
    (i.op ∉ Op.carryWriters → ∀ t, exec i s = .next t → t.cf = s.cf)

/-- Only JZ and JNZ read the zero flag and only JC and JNC the carry: changing the flag before any other
instruction changes nothing else of what it does (10_state R23). -/
def Obligations.OnlyConditionalJumpsReadFlags : Prop :=
  ∀ (i : Instr) (s : State) (b : Bool),
    (i.op ∉ [Op.jz, .jnz] →
      (∀ t, exec i s = .next t → ∃ t', exec i { s with zf := b } = .next t' ∧ { t' with zf := t.zf } = t) ∧
      ∀ f, exec i s = .fault f → exec i { s with zf := b } = .fault f) ∧
    (i.op ∉ [Op.jc, .jnc] →
      (∀ t, exec i s = .next t → ∃ t', exec i { s with cf := b } = .next t' ∧ { t' with cf := t.cf } = t) ∧
      ∀ f, exec i s = .fault f → exec i { s with cf := b } = .fault f)

/-- No instruction writes instruction memory or the parameters, and the host changes instruction memory only
by its load, only while Stopped (20_memory R51, 70_reset R142). -/
def Obligations.InstructionMemoryChangesOnlyByLoad : Prop :=
  (∀ s t : State, step s = .next t → t.imem = s.imem ∧ t.cfg = s.cfg ∧ t.fault = none) ∧
  ∀ (c : Command) (s t : State), issue c s = .next t → t.imem ≠ s.imem →
    s.run = .stopped ∧ ∃ img, c = .loadInstructions img

/-- The step counter and the stale `ir` cannot be observed by a program (10_state R33): two states that
differ only there step alike, and to states that differ only in the counter, by the same amount. -/
def Obligations.CounterAndIrAreUnobservable : Prop :=
  ∀ (s : State) (k : Nat) (w : IWord),
    (∀ t, step s = .next t →
      step { s with steps := k, ir := w } = .next { t with steps := k + (t.steps - s.steps) }) ∧
    ∀ f, step s = .fault f → step { s with steps := k, ir := w } = .fault f

/-- A run that ends normally ran `k` steps, none of them HLT, to a state whose step is HLT: the block is then
Stopped, the pc is the HLT's slot plus one, and the counter went up by `k` (70_reset R140). -/
def Obligations.NormalEndCountsTheStepsBeforeHlt : Prop :=
  ∀ (n : Nat) (s t : State), runToEnd n s = .normal t →
    ∃ (k : Nat) (u : State), k < n ∧ Host.Core.run Sys2Proof.core k s = .next u ∧
      decode u.fetched = .instr .hlt ∧ step u = .next t ∧ t.run = .stopped ∧ t.pc = u.pc + 1 ∧
      t.ir = u.fetched ∧ t.steps = s.steps + k

/-- From a ready state whose slots from the pc to the last hold 0, the run executes NOP to the end of
instruction memory and then faults at IMEM_WORDS (45_system R110, 60_exceptions R122). -/
def Obligations.ZeroSlotsRunOffTheEnd : Prop :=
  ∀ s : State, s.ready → s.cfg.imemWords < 2 ^ 32 →
    (∀ k, s.pc.toNat ≤ k → k < s.cfg.imemWords → Memory.read s.imem k = 0) →
    runToEnd (s.cfg.imemWords - s.pc.toNat + 1) s =
      .abnormal (.pcRange (BitVec.ofNat 32 s.cfg.imemWords))
        { s with
          pc := BitVec.ofNat 32 s.cfg.imemWords, ir := 0,
          steps := s.steps + (s.cfg.imemWords - s.pc.toNat),
          fault := some (.pcRange (BitVec.ofNat 32 s.cfg.imemWords)) }

/-! ## Faults -/

/-- A fault is recorded and final: after it every command, in any number, leaves the state as it is, and no
run from it ends normally (60_exceptions R114). That a command after it is answered `.ignored` with that
fault, and that a step answers the same fault again, is the model's choice (log entry 6): R114 says only
that no step is taken and no command accepted. -/
def Obligations.FaultIsRecordedAndFinal : Prop :=
  (∀ (c : Command) (s t : State) (f : Fault), serve c s = (t, .faulted f) → t.fault = some f) ∧
  ∀ (cs : List Command) (s : State) (f : Fault), s.fault = some f →
    serveAll cs s = s ∧ (∀ r ∈ responses cs s, r = .ignored f) ∧ step s = .fault f ∧
      ∀ (n : Nat) (t : State), runToEnd n s ≠ .normal t

/-- Faults are precise: a command that faults writes nothing but the fault record and, for an illegal opcode
alone, `ir`, which then holds the fetched word (60_exceptions R115, 92_eei_decisions D25; log entry 7 on `ir`
after a data address fault). -/
def Obligations.FaultsArePrecise : Prop :=
  ∀ (c : Command) (s t : State) (f : Fault), serve c s = (t, .faulted f) →
    t = { s with ir := t.ir, fault := some f } ∧
    (∀ cause, f = .usage cause → t.ir = s.ir) ∧ (∀ p, f = .pcRange p → t.ir = s.ir ∧ p = s.pc) ∧
    (∀ w p, f = .illegalOpcode w p → t.ir = w ∧ w = s.fetched ∧ p = s.pc) ∧
    ∀ addr p, f = .dataAddress addr p → t.ir = s.ir ∧ p = s.pc

/-- The order of the faults of one command: usage, then for a step pc range, illegal opcode, the
multiplexer's data address, the instruction's own data address; each is raised whatever a later check would
say, and a command other than a step raises a usage fault alone (60_exceptions R125). -/
def Obligations.StepFaultPriority : Prop :=
  ∀ s : State, s.fault = none →
    (∀ (c : Command) (f : Fault), c ≠ .step → issue c s = .fault f → ∃ cause, f = .usage cause) ∧
    (s.run = .stopped → step s = .fault (.usage .stepWhileStopped)) ∧
    (s.run = .running → s.cfg.imemWords ≤ s.pc.toNat → step s = .fault (.pcRange s.pc)) ∧
    (s.ready → 0xA000 ≤ s.fetched.toNat → step s = .fault (.illegalOpcode s.fetched s.pc)) ∧
    ∀ (i : Instr) (m : Mode) (a : Field10), s.ready → decode s.fetched = .instr i → i.operand = some (m, a) →
      (¬ operandInRange m a s → step s = .fault (.dataAddress (BitVec.ofNat 32 a.toNat) s.pc)) ∧
      (operandInRange m a s → i.op ∈ [Op.store, .loadind] →
        s.cfg.dmemWords ≤ (operandValue m a s).toNat →
        step s = .fault (.dataAddress (operandValue m a s) s.pc))

/-- When an instruction faults: the multiplexer's field is out of range (taken jump or not), or STORE's or
LOADIND's own address is; a zero-operand instruction never faults; with DMEM_WORDS at least 1024 only an
Indirect STORE or LOADIND can (60_exceptions R124). -/
def Obligations.DataAddressFaultsExactlyWhenOutOfRange : Prop :=
  ∀ (i : Instr) (s : State) (f : Fault),
    (exec i s = .fault f ↔
      ∃ m a, i.operand = some (m, a) ∧
        (¬ operandInRange m a s ∧ f = .dataAddress (BitVec.ofNat 32 a.toNat) s.pc ∨
          operandInRange m a s ∧ i.op ∈ [Op.store, .loadind] ∧
            s.cfg.dmemWords ≤ (operandValue m a s).toNat ∧ f = .dataAddress (operandValue m a s) s.pc)) ∧
    (1024 ≤ s.cfg.dmemWords → exec i s = .fault f →
      ∃ a, (i = .store .indirect a ∨ i = .loadind .indirect a) ∧
        s.cfg.dmemWords ≤ (Memory.read s.dmem a.toNat).toNat ∧
        f = .dataAddress (Memory.read s.dmem a.toNat) s.pc)

/-- An illegal word faults at decode before any operand is read, with `ir` written and nothing else
(30_encoding R62, 60_exceptions R123). -/
def Obligations.IllegalWordFaultsAtDecode : Prop :=
  ∀ s : State, s.ready → 0xA000 ≤ s.fetched.toNat →
    serve .step s =
      ({ s with ir := s.fetched, fault := some (.illegalOpcode s.fetched s.pc) },
        .faulted (.illegalOpcode s.fetched s.pc))

/-! ## Host commands, reset and inspection -/

/-- `start()` and `stop()` (60_exceptions R116, R117): what they write, and their usage faults. -/
def Obligations.StartAndStopCommands : Prop :=
  ∀ s : State, s.fault = none →
    (s.run = .stopped → serve .start s =
      ({ s with pc := 0, acc := 0, zf := s.cfg.resetZF, cf := s.cfg.resetCF, steps := 0, run := .running },
        .done)) ∧
    (s.run = .running → serve .start s =
      ({ s with fault := some (.usage .startWhileRunning) }, .faulted (.usage .startWhileRunning))) ∧
    (s.run = .running → serve .stop s = ({ s with run := .stopped }, .done)) ∧
    (s.run = .stopped → serve .stop s =
      ({ s with fault := some (.usage .stopWhileStopped) }, .faulted (.usage .stopWhileStopped)))

/-- The two loads (60_exceptions R118): the whole array becomes the image, padded with 0, and nothing else
changes; while Running a load faults and writes nothing but the record of the fault. -/
def Obligations.LoadCommands : Prop :=
  (∀ (img : List IWord) (s : State), s.fault = none →
    (s.run = .stopped → img.length ≤ s.cfg.imemWords → ∃ t, serve (.loadInstructions img) s = (t, .done) ∧
      t = { s with imem := t.imem } ∧ ∀ k, Memory.read t.imem k = img.getD k 0) ∧
    (s.run = .running → serve (.loadInstructions img) s =
      ({ s with fault := some (.usage (.loadWhileRunning .instruction)) },
        .faulted (.usage (.loadWhileRunning .instruction))))) ∧
  ∀ (img : List Word) (s : State), s.fault = none →
    (s.run = .stopped → img.length ≤ s.cfg.dmemWords → ∃ t, serve (.loadData img) s = (t, .done) ∧
      t = { s with dmem := t.dmem } ∧ ∀ k, Memory.read t.dmem k = img.getD k 0) ∧
    (s.run = .running → serve (.loadData img) s =
      ({ s with fault := some (.usage (.loadWhileRunning .data)) },
        .faulted (.usage (.loadWhileRunning .data))))

/-- The power-on state, for every value of the parameters (70_reset R136). -/
def Obligations.PowerOnState : Prop :=
  ∀ c : Config,
    (State.powerOn c).run = .stopped ∧ (State.powerOn c).ir = 0 ∧ (State.powerOn c).pc = 0 ∧
    (State.powerOn c).acc = 0 ∧ (State.powerOn c).zf = c.resetZF ∧ (State.powerOn c).cf = c.resetCF ∧
    (State.powerOn c).steps = 0 ∧ (State.powerOn c).fault = none ∧
    (∀ k, Memory.read (State.powerOn c).imem k = 0) ∧ ∀ k, Memory.read (State.powerOn c).dmem k = 0

/-- The boot sequence (70_reset R137, R138): from any Stopped block without a fault, load, load and start
lead to a state ready to fetch the image's first word from slot 0, with the reset values and the data
image in place. -/
def Obligations.BootLeadsToSlotZero : Prop :=
  ∀ (prog : List IWord) (data : List Word) (s : State),
    s.fault = none → s.run = .stopped → s.cfg.wf = true →
    prog.length ≤ s.cfg.imemWords → data.length ≤ s.cfg.dmemWords →
    ∃ t, serveAll (bootCommands prog data) s = t ∧
      responses (bootCommands prog data) s = [.done, .done, .done] ∧
      t.ready ∧ t.pc = 0 ∧ t.acc = 0 ∧ t.zf = s.cfg.resetZF ∧ t.cf = s.cfg.resetCF ∧ t.steps = 0 ∧
      t.ir = s.ir ∧ t.cfg = s.cfg ∧ t.fetched = prog.getD 0 0 ∧
      (∀ k, Memory.read t.imem k = prog.getD k 0) ∧ ∀ k, Memory.read t.dmem k = data.getD k 0

/-- The inspection surface shows the state as it is, with the decoded form of `ir` exactly where its code is
defined, and both arrays word by word (60_exceptions R119, 30_encoding R74). -/
def Obligations.InspectionShowsTheState : Prop :=
  ∀ s : State,
    (inspect s).pc = s.pc ∧ (inspect s).acc = s.acc ∧ (inspect s).zf = s.zf ∧ (inspect s).cf = s.cf ∧
    (inspect s).irRaw = s.ir ∧ (inspect s).run = s.run ∧ (inspect s).steps = s.steps ∧
    (inspect s).fault = s.fault ∧
    (0xA000 ≤ s.ir.toNat → (inspect s).irText = none) ∧
    (∀ i, decode s.ir = .instr i → (inspect s).irText = some (disassembleInstr i)) ∧
    (inspect s).imem.length = s.cfg.imemWords ∧ (inspect s).dmem.length = s.cfg.dmemWords ∧
    (∀ k, k < s.cfg.imemWords → (inspect s).imem[k]? = some (Memory.read s.imem k)) ∧
    ∀ k, k < s.cfg.dmemWords → (inspect s).dmem[k]? = some (Memory.read s.dmem k)

/-! ## The model's own data -/

/-- Two canonical memories that read alike at every address are equal data (log entry 4). -/
def Obligations.EqualReadingMemoriesAreEqual : Prop :=
  ∀ (w : Nat) (m n : Memory w), Memory.wf m → Memory.wf n → (∀ a, Memory.read m a = Memory.read n a) → m = n

/-- `withFetchWord` places a word where the next step fetches it: from any state with legal parameters and a
canonical instruction memory, the next step runs the instruction of that word (log entry 3). -/
def Obligations.FetchWordRunsNext : Prop :=
  ∀ (s : State) (w : Nat) (i : Instr), s.cfg.wf = true → Memory.wf s.imem →
    decodeTableWord 16 w = some i →
    (s.withFetchWord 16 w).ready ∧
    step (s.withFetchWord 16 w) =
      endStep (exec i { s.withFetchWord 16 w with ir := BitVec.ofNat 16 w }) ∧
    (∀ k, k ≠ (s.withFetchWord 16 w).pc.toNat →
      Memory.read (s.withFetchWord 16 w).imem k = Memory.read s.imem k) ∧
    (s.withFetchWord 16 w).acc = s.acc ∧ (s.withFetchWord 16 w).zf = s.zf ∧
    (s.withFetchWord 16 w).cf = s.cf ∧ (s.withFetchWord 16 w).dmem = s.dmem ∧
    (s.withFetchWord 16 w).steps = s.steps ∧ (s.withFetchWord 16 w).cfg = s.cfg
end

