-- ==== Sys2Proof/Laws/Decode.lean ====
section
/-! SUPPORT. The small lemmas of the decoder's tables. -/

namespace Sys2Proof

@[simp] theorem lookupOp_codeOfOp (o : Op) : lookupOp (codeOfOp o) = some o := by cases o <;> rfl

@[simp] theorem modeOfBit_bitOfMode (m : Mode) : modeOfBit (bitOfMode m) = m := by cases m <;> rfl

@[simp] theorem Op.instr_op (o : Op) (m : Mode) (a : Field10) : (o.instr m a).op = o := by cases o <;> rfl

/-- A defined code is below 20. -/
theorem lookupOp_isSome_iff (c : BitVec 5) : (lookupOp c).isSome = decide (c.toNat < 20) := by
  revert c
  decide

/-- The fields an encoder writes for an instruction, and the instruction they stand for. -/
theorem Op.instr_fieldBits (i : Instr) : i.op.instr (modeOfBit i.fieldBits.1) i.fieldBits.2 = i := by
  cases i <;> simp [Instr.op, Instr.fieldBits, Instr.operand, Op.instr]

end Sys2Proof
end

