-- ==== Sys2Proof/Laws/Memory.lean ====
section
/-! SUPPORT. The laws of a memory: reading after writing, and the canonical form under every operation. -/

namespace Sys2Proof.Machine

variable {w : Nat}

@[simp] theorem Memory.read_nil (a : Nat) : Memory.read ([] : Memory w) a = 0 := rfl

@[simp] theorem Memory.read_cons (b : Nat) (v : BitVec w) (m : Memory w) (a : Nat) :
    Memory.read ((b, v) :: m) a = if a = b then v else Memory.read m a := rfl

theorem Memory.wf_nil : Memory.wf ([] : Memory w) :=
  ⟨List.Pairwise.nil, fun _ h => nomatch h⟩

theorem Memory.wf_tail {c : Nat × BitVec w} {m : Memory w} (h : Memory.wf (c :: m)) : Memory.wf m :=
  ⟨(List.pairwise_cons.mp h.1).2, fun d hd => h.2 d (List.mem_cons_of_mem c hd)⟩

theorem Memory.wf_cons {c : Nat × BitVec w} {m : Memory w} (hm : Memory.wf m) (hc : c.2 ≠ 0)
    (hlt : ∀ d ∈ m, c.1 < d.1) : Memory.wf (c :: m) :=
  ⟨List.pairwise_cons.mpr ⟨hlt, hm.1⟩, fun d hd => by
    obtain rfl | hd := List.mem_cons.mp hd
    · exact hc
    · exact hm.2 d hd⟩

/-- An address below every listed one reads as an unlisted address does. -/
theorem Memory.read_of_lt {m : Memory w} {a : Nat} (h : ∀ d ∈ m, a < d.1) : Memory.read m a = 0 := by
  induction m with
  | nil => rfl
  | cons c m ih =>
    have hc := h c List.mem_cons_self
    simp only [Memory.read]
    rw [if_neg (by omega)]
    exact ih fun d hd => h d (List.mem_cons_of_mem c hd)

/-- A listed word reads as itself. -/
theorem Memory.read_of_mem {m : Memory w} (hm : Memory.wf m) {c : Nat × BitVec w} (hc : c ∈ m) :
    Memory.read m c.1 = c.2 := by
  induction m with
  | nil => simp at hc
  | cons d m ih =>
    obtain rfl | hc := List.mem_cons.mp hc
    · simp [Memory.read]
    · have hlt := (List.pairwise_cons.mp hm.1).1 c hc
      simp only [Memory.read]
      rw [if_neg (by omega)]
      exact ih (Memory.wf_tail hm) hc

/-- Every entry of a written memory is an entry of the old one or the one written. -/
theorem Memory.mem_write {m : Memory w} {a : Nat} {v : BitVec w} {c : Nat × BitVec w}
    (h : c ∈ Memory.write m a v) : c ∈ m ∨ c = (a, v) ∧ v ≠ 0 := by
  induction m with
  | nil =>
    simp only [Memory.write] at h
    split at h <;> simp_all
  | cons d m ih =>
    simp only [Memory.write] at h
    split at h
    · split at h <;> simp_all
      tauto
    · split at h
      · split at h <;> simp_all
        tauto
      · obtain rfl | h := List.mem_cons.mp h
        · simp
        · obtain h | h := ih h
          · exact .inl (List.mem_cons_of_mem d h)
          · exact .inr h

/-- Reading the address just written gives the word written. -/
theorem Memory.read_write_same {m : Memory w} (hm : Memory.wf m) (a : Nat) (v : BitVec w) :
    Memory.read (Memory.write m a v) a = v := by
  induction m with
  | nil =>
    simp only [Memory.write]
    split
    · simp_all
    · simp
  | cons d m ih =>
    have htail := Memory.wf_tail hm
    have hlt := (List.pairwise_cons.mp hm.1).1
    simp only [Memory.write]
    split
    · rename_i h
      split
      · rename_i hv
        rw [hv]
        exact Memory.read_of_lt fun e he => by
          obtain rfl | he := List.mem_cons.mp he
          · exact h
          · exact lt_trans h (hlt e he)
      · simp
    · split
      · rename_i h
        split
        · rename_i hv
          rw [hv]
          exact Memory.read_of_lt fun e he => h ▸ hlt e he
        · simp
      · rename_i h
        rw [Memory.read_cons, if_neg h]
        exact ih htail

/-- Reading any other address gives what it gave before the write. -/
theorem Memory.read_write_other {m : Memory w} (hm : Memory.wf m) {a b : Nat} (h : b ≠ a) (v : BitVec w) :
    Memory.read (Memory.write m a v) b = Memory.read m b := by
  induction m with
  | nil =>
    simp only [Memory.write]
    split <;> simp_all
  | cons d m ih =>
    have hlt := (List.pairwise_cons.mp hm.1).1
    simp only [Memory.write]
    split
    · split
      · rfl
      · rw [Memory.read_cons, if_neg h]
    · split
      · rename_i had
        subst had
        split
        · rw [Memory.read_cons, if_neg h]
        · rw [Memory.read_cons, if_neg h, Memory.read_cons, if_neg h]
      · rw [Memory.read_cons, Memory.read_cons, ih (Memory.wf_tail hm)]

/-- A write keeps the canonical form. -/
theorem Memory.write_wf {m : Memory w} (hm : Memory.wf m) (a : Nat) (v : BitVec w) :
    Memory.wf (Memory.write m a v) := by
  induction m with
  | nil =>
    simp only [Memory.write]
    split
    · exact Memory.wf_nil
    · exact Memory.wf_cons Memory.wf_nil ‹_› (by simp)
  | cons d m ih =>
    have htail := Memory.wf_tail hm
    have hlt := (List.pairwise_cons.mp hm.1).1
    have hd : d.2 ≠ 0 := hm.2 d List.mem_cons_self
    simp only [Memory.write]
    split
    · rename_i h
      split
      · exact hm
      · exact Memory.wf_cons hm ‹_› fun e he => by
          obtain rfl | he := List.mem_cons.mp he
          · exact h
          · exact lt_trans h (hlt e he)
    · split
      · rename_i h
        split
        · exact htail
        · exact Memory.wf_cons htail ‹_› fun e he => h ▸ hlt e he
      · refine Memory.wf_cons (ih htail) hd fun e he => ?_
        obtain he | ⟨rfl, -⟩ := Memory.mem_write he
        · exact hlt e he
        · show d.1 < a
          omega

/-- A write inside an array lists no word outside it. -/
theorem Memory.write_within {m : Memory w} {n : Nat} (hm : Memory.within n m) {a : Nat} (ha : a < n)
    (v : BitVec w) : Memory.within n (Memory.write m a v) := fun c hc => by
  obtain hc | ⟨rfl, -⟩ := Memory.mem_write hc
  · exact hm c hc
  · exact ha

theorem Memory.mem_ofImageFrom {img : List (BitVec w)} {base : Nat} {c : Nat × BitVec w}
    (h : c ∈ Memory.ofImageFrom base img) : base ≤ c.1 ∧ c.1 < base + img.length ∧ c.2 ≠ 0 := by
  induction img generalizing base with
  | nil => simp [Memory.ofImageFrom] at h
  | cons v vs ih =>
    simp only [Memory.ofImageFrom] at h
    split at h
    · obtain ⟨h1, h2, h3⟩ := ih h
      exact ⟨by omega, by simp only [List.length_cons]; omega, h3⟩
    · obtain rfl | h := List.mem_cons.mp h
      · simp_all
      · obtain ⟨h1, h2, h3⟩ := ih h
        exact ⟨by omega, by simp only [List.length_cons]; omega, h3⟩

/-- An image gives a memory in canonical form. -/
theorem Memory.ofImageFrom_wf (img : List (BitVec w)) (base : Nat) :
    Memory.wf (Memory.ofImageFrom base img) := by
  induction img generalizing base with
  | nil => exact Memory.wf_nil
  | cons v vs ih =>
    simp only [Memory.ofImageFrom]
    split
    · exact ih _
    · exact Memory.wf_cons (ih _) ‹_› fun d hd => by
        have := Memory.mem_ofImageFrom hd
        show base < d.1
        omega

theorem Memory.ofImage_wf (img : List (BitVec w)) : Memory.wf (Memory.ofImage img) :=
  Memory.ofImageFrom_wf img 0

theorem Memory.ofImage_within {img : List (BitVec w)} {n : Nat} (h : img.length ≤ n) :
    Memory.within n (Memory.ofImage img) := fun c hc => by
  have := Memory.mem_ofImageFrom hc
  omega

theorem Memory.read_ofImageFrom (img : List (BitVec w)) (base k : Nat) :
    Memory.read (Memory.ofImageFrom base img) (base + k) = img.getD k 0 := by
  induction img generalizing base k with
  | nil => simp [Memory.ofImageFrom]
  | cons v vs ih =>
    simp only [Memory.ofImageFrom]
    have hnone : Memory.read (Memory.ofImageFrom (base + 1) vs) base = 0 :=
      Memory.read_of_lt fun d hd => by have := Memory.mem_ofImageFrom hd; omega
    cases k with
    | zero =>
      split
      · simp_all
      · simp
    | succ k =>
      have e : base + (k + 1) = base + 1 + k := by omega
      split
      · rw [e, ih]
        rfl
      · rw [Memory.read_cons, if_neg (by omega), e, ih]
        rfl

/-- A loaded array reads as the image, padded with 0. -/
theorem Memory.read_ofImage (img : List (BitVec w)) (k : Nat) :
    Memory.read (Memory.ofImage img) k = img.getD k 0 := by
  have := Memory.read_ofImageFrom img 0 k
  rwa [Nat.zero_add] at this

end Sys2Proof.Machine
end

