-- ==== Sys2Proof/Laws/State.lean ====
section
/-! SUPPORT. What each named update does to each field of the state. -/

namespace Sys2Proof.Machine

variable (s : State)

/-! ### writeAcc -/

@[simp] theorem State.writeAcc_acc (v : Word) : (s.writeAcc v).acc = v := rfl
@[simp] theorem State.writeAcc_zf (v : Word) : (s.writeAcc v).zf = zeroFlag v := rfl
@[simp] theorem State.writeAcc_cf (v : Word) : (s.writeAcc v).cf = s.cf := rfl
@[simp] theorem State.writeAcc_pc (v : Word) : (s.writeAcc v).pc = s.pc := rfl
@[simp] theorem State.writeAcc_ir (v : Word) : (s.writeAcc v).ir = s.ir := rfl
@[simp] theorem State.writeAcc_run (v : Word) : (s.writeAcc v).run = s.run := rfl
@[simp] theorem State.writeAcc_steps (v : Word) : (s.writeAcc v).steps = s.steps := rfl
@[simp] theorem State.writeAcc_imem (v : Word) : (s.writeAcc v).imem = s.imem := rfl
@[simp] theorem State.writeAcc_dmem (v : Word) : (s.writeAcc v).dmem = s.dmem := rfl
@[simp] theorem State.writeAcc_fault (v : Word) : (s.writeAcc v).fault = s.fault := rfl
@[simp] theorem State.writeAcc_cfg (v : Word) : (s.writeAcc v).cfg = s.cfg := rfl

/-! ### writeCarry -/

@[simp] theorem State.writeCarry_acc (c : Bool) : (s.writeCarry c).acc = s.acc := rfl
@[simp] theorem State.writeCarry_zf (c : Bool) : (s.writeCarry c).zf = s.zf := rfl
@[simp] theorem State.writeCarry_cf (c : Bool) : (s.writeCarry c).cf = c := rfl
@[simp] theorem State.writeCarry_pc (c : Bool) : (s.writeCarry c).pc = s.pc := rfl
@[simp] theorem State.writeCarry_ir (c : Bool) : (s.writeCarry c).ir = s.ir := rfl
@[simp] theorem State.writeCarry_run (c : Bool) : (s.writeCarry c).run = s.run := rfl
@[simp] theorem State.writeCarry_steps (c : Bool) : (s.writeCarry c).steps = s.steps := rfl
@[simp] theorem State.writeCarry_imem (c : Bool) : (s.writeCarry c).imem = s.imem := rfl
@[simp] theorem State.writeCarry_dmem (c : Bool) : (s.writeCarry c).dmem = s.dmem := rfl
@[simp] theorem State.writeCarry_fault (c : Bool) : (s.writeCarry c).fault = s.fault := rfl
@[simp] theorem State.writeCarry_cfg (c : Bool) : (s.writeCarry c).cfg = s.cfg := rfl

/-! ### jumpTo -/

@[simp] theorem State.jumpTo_acc (t : Word) : (s.jumpTo t).acc = s.acc := rfl
@[simp] theorem State.jumpTo_zf (t : Word) : (s.jumpTo t).zf = s.zf := rfl
@[simp] theorem State.jumpTo_cf (t : Word) : (s.jumpTo t).cf = s.cf := rfl
@[simp] theorem State.jumpTo_pc (t : Word) : (s.jumpTo t).pc = t - 1 := rfl
@[simp] theorem State.jumpTo_ir (t : Word) : (s.jumpTo t).ir = s.ir := rfl
@[simp] theorem State.jumpTo_run (t : Word) : (s.jumpTo t).run = s.run := rfl
@[simp] theorem State.jumpTo_steps (t : Word) : (s.jumpTo t).steps = s.steps := rfl
@[simp] theorem State.jumpTo_imem (t : Word) : (s.jumpTo t).imem = s.imem := rfl
@[simp] theorem State.jumpTo_dmem (t : Word) : (s.jumpTo t).dmem = s.dmem := rfl
@[simp] theorem State.jumpTo_fault (t : Word) : (s.jumpTo t).fault = s.fault := rfl
@[simp] theorem State.jumpTo_cfg (t : Word) : (s.jumpTo t).cfg = s.cfg := rfl

/-! ### halt -/

@[simp] theorem State.halt_acc : (s.halt).acc = s.acc := rfl
@[simp] theorem State.halt_zf : (s.halt).zf = s.zf := rfl
@[simp] theorem State.halt_cf : (s.halt).cf = s.cf := rfl
@[simp] theorem State.halt_pc : (s.halt).pc = s.pc := rfl
@[simp] theorem State.halt_ir : (s.halt).ir = s.ir := rfl
@[simp] theorem State.halt_run : (s.halt).run = RunState.stopped := rfl
@[simp] theorem State.halt_steps : (s.halt).steps = s.steps := rfl
@[simp] theorem State.halt_imem : (s.halt).imem = s.imem := rfl
@[simp] theorem State.halt_dmem : (s.halt).dmem = s.dmem := rfl
@[simp] theorem State.halt_fault : (s.halt).fault = s.fault := rfl
@[simp] theorem State.halt_cfg : (s.halt).cfg = s.cfg := rfl

/-! ### writeIr -/

@[simp] theorem State.writeIr_acc (w : IWord) : (s.writeIr w).acc = s.acc := rfl
@[simp] theorem State.writeIr_zf (w : IWord) : (s.writeIr w).zf = s.zf := rfl
@[simp] theorem State.writeIr_cf (w : IWord) : (s.writeIr w).cf = s.cf := rfl
@[simp] theorem State.writeIr_pc (w : IWord) : (s.writeIr w).pc = s.pc := rfl
@[simp] theorem State.writeIr_ir (w : IWord) : (s.writeIr w).ir = w := rfl
@[simp] theorem State.writeIr_run (w : IWord) : (s.writeIr w).run = s.run := rfl
@[simp] theorem State.writeIr_steps (w : IWord) : (s.writeIr w).steps = s.steps := rfl
@[simp] theorem State.writeIr_imem (w : IWord) : (s.writeIr w).imem = s.imem := rfl
@[simp] theorem State.writeIr_dmem (w : IWord) : (s.writeIr w).dmem = s.dmem := rfl
@[simp] theorem State.writeIr_fault (w : IWord) : (s.writeIr w).fault = s.fault := rfl
@[simp] theorem State.writeIr_cfg (w : IWord) : (s.writeIr w).cfg = s.cfg := rfl

/-! ### withDataWord -/

@[simp] theorem State.withDataWord_acc (addr v : Word) : (s.withDataWord addr v).acc = s.acc := rfl
@[simp] theorem State.withDataWord_zf (addr v : Word) : (s.withDataWord addr v).zf = s.zf := rfl
@[simp] theorem State.withDataWord_cf (addr v : Word) : (s.withDataWord addr v).cf = s.cf := rfl
@[simp] theorem State.withDataWord_pc (addr v : Word) : (s.withDataWord addr v).pc = s.pc := rfl
@[simp] theorem State.withDataWord_ir (addr v : Word) : (s.withDataWord addr v).ir = s.ir := rfl
@[simp] theorem State.withDataWord_run (addr v : Word) : (s.withDataWord addr v).run = s.run := rfl
@[simp] theorem State.withDataWord_steps (addr v : Word) : (s.withDataWord addr v).steps = s.steps := rfl
@[simp] theorem State.withDataWord_imem (addr v : Word) : (s.withDataWord addr v).imem = s.imem := rfl
@[simp] theorem State.withDataWord_dmem (addr v : Word) : (s.withDataWord addr v).dmem = Memory.write s.dmem addr.toNat v := rfl
@[simp] theorem State.withDataWord_fault (addr v : Word) : (s.withDataWord addr v).fault = s.fault := rfl
@[simp] theorem State.withDataWord_cfg (addr v : Word) : (s.withDataWord addr v).cfg = s.cfg := rfl

/-! ### started -/

@[simp] theorem State.started_acc : (s.started).acc = 0 := rfl
@[simp] theorem State.started_zf : (s.started).zf = s.cfg.resetZF := rfl
@[simp] theorem State.started_cf : (s.started).cf = s.cfg.resetCF := rfl
@[simp] theorem State.started_pc : (s.started).pc = 0 := rfl
@[simp] theorem State.started_ir : (s.started).ir = s.ir := rfl
@[simp] theorem State.started_run : (s.started).run = RunState.running := rfl
@[simp] theorem State.started_steps : (s.started).steps = 0 := rfl
@[simp] theorem State.started_imem : (s.started).imem = s.imem := rfl
@[simp] theorem State.started_dmem : (s.started).dmem = s.dmem := rfl
@[simp] theorem State.started_fault : (s.started).fault = s.fault := rfl
@[simp] theorem State.started_cfg : (s.started).cfg = s.cfg := rfl

/-! ### jumpIf -/

@[simp] theorem State.jumpIf_acc (c : Bool) (t : Word) : (s.jumpIf c t).acc = s.acc := by cases c <;> rfl
@[simp] theorem State.jumpIf_zf (c : Bool) (t : Word) : (s.jumpIf c t).zf = s.zf := by cases c <;> rfl
@[simp] theorem State.jumpIf_cf (c : Bool) (t : Word) : (s.jumpIf c t).cf = s.cf := by cases c <;> rfl
@[simp] theorem State.jumpIf_pc (c : Bool) (t : Word) :
    (s.jumpIf c t).pc = if c then t - 1 else s.pc := by cases c <;> rfl
@[simp] theorem State.jumpIf_ir (c : Bool) (t : Word) : (s.jumpIf c t).ir = s.ir := by cases c <;> rfl
@[simp] theorem State.jumpIf_run (c : Bool) (t : Word) : (s.jumpIf c t).run = s.run := by cases c <;> rfl
@[simp] theorem State.jumpIf_steps (c : Bool) (t : Word) : (s.jumpIf c t).steps = s.steps := by cases c <;> rfl
@[simp] theorem State.jumpIf_imem (c : Bool) (t : Word) : (s.jumpIf c t).imem = s.imem := by cases c <;> rfl
@[simp] theorem State.jumpIf_dmem (c : Bool) (t : Word) : (s.jumpIf c t).dmem = s.dmem := by cases c <;> rfl
@[simp] theorem State.jumpIf_fault (c : Bool) (t : Word) : (s.jumpIf c t).fault = s.fault := by cases c <;> rfl
@[simp] theorem State.jumpIf_cfg (c : Bool) (t : Word) : (s.jumpIf c t).cfg = s.cfg := by cases c <;> rfl

/-! ### advance -/

@[simp] theorem State.advance_acc : s.advance.acc = s.acc := by
  cases h : s.run <;> simp [State.advance, h]
@[simp] theorem State.advance_zf : s.advance.zf = s.zf := by
  cases h : s.run <;> simp [State.advance, h]
@[simp] theorem State.advance_cf : s.advance.cf = s.cf := by
  cases h : s.run <;> simp [State.advance, h]
@[simp] theorem State.advance_pc : s.advance.pc = s.pc + 1 := by
  cases h : s.run <;> simp [State.advance, h]
@[simp] theorem State.advance_ir : s.advance.ir = s.ir := by
  cases h : s.run <;> simp [State.advance, h]
@[simp] theorem State.advance_run : s.advance.run = s.run := by
  cases h : s.run <;> simp [State.advance, h]
@[simp] theorem State.advance_steps :
    s.advance.steps = if s.run = .running then s.steps + 1 else s.steps := by
  cases h : s.run <;> simp [State.advance, h]
@[simp] theorem State.advance_imem : s.advance.imem = s.imem := by
  cases h : s.run <;> simp [State.advance, h]
@[simp] theorem State.advance_dmem : s.advance.dmem = s.dmem := by
  cases h : s.run <;> simp [State.advance, h]
@[simp] theorem State.advance_fault : s.advance.fault = s.fault := by
  cases h : s.run <;> simp [State.advance, h]
@[simp] theorem State.advance_cfg : s.advance.cfg = s.cfg := by
  cases h : s.run <;> simp [State.advance, h]

/-! ### recordFault -/

@[simp] theorem State.recordFault_acc (f : Fault) : (s.recordFault f).acc = s.acc := by cases f <;> rfl
@[simp] theorem State.recordFault_zf (f : Fault) : (s.recordFault f).zf = s.zf := by cases f <;> rfl
@[simp] theorem State.recordFault_cf (f : Fault) : (s.recordFault f).cf = s.cf := by cases f <;> rfl
@[simp] theorem State.recordFault_pc (f : Fault) : (s.recordFault f).pc = s.pc := by cases f <;> rfl
@[simp] theorem State.recordFault_run (f : Fault) : (s.recordFault f).run = s.run := by cases f <;> rfl
@[simp] theorem State.recordFault_steps (f : Fault) : (s.recordFault f).steps = s.steps := by cases f <;> rfl
@[simp] theorem State.recordFault_imem (f : Fault) : (s.recordFault f).imem = s.imem := by cases f <;> rfl
@[simp] theorem State.recordFault_dmem (f : Fault) : (s.recordFault f).dmem = s.dmem := by cases f <;> rfl
@[simp] theorem State.recordFault_fault (f : Fault) : (s.recordFault f).fault = some f := by cases f <;> rfl
@[simp] theorem State.recordFault_cfg (f : Fault) : (s.recordFault f).cfg = s.cfg := by cases f <;> rfl

@[simp] theorem State.recordFault_ir_usage (c : UsageCause) : (s.recordFault (.usage c)).ir = s.ir := rfl
@[simp] theorem State.recordFault_ir_pcRange (p : Word) : (s.recordFault (.pcRange p)).ir = s.ir := rfl
@[simp] theorem State.recordFault_ir_illegalOpcode (w : IWord) (p : Word) :
    (s.recordFault (.illegalOpcode w p)).ir = Memory.read s.imem s.pc.toNat := rfl
@[simp] theorem State.recordFault_ir_dataAddress (a p : Word) :
    (s.recordFault (.dataAddress a p)).ir = s.ir := rfl

/-- Everything that recording a fault can write: the record and `ir`. -/
theorem State.recordFault_eq (f : Fault) :
    s.recordFault f = { s with ir := (s.recordFault f).ir, fault := some f } := by cases f <;> rfl

end Sys2Proof.Machine
end

