-- ==== Sys2Proof/Laws/Ops.lean ====
section
/-! SUPPORT. One spec lemma per shared operation: everything a memory access, the multiplexer and a
guarded command can do. -/

namespace Sys2Proof.Machine

theorem zext32_toNat (a : Field10) : (zext32 a).toNat = a.toNat := by
  have := a.isLt
  simp only [zext32, BitVec.toNat_setWidth]
  omega

theorem zext32_eq_ofNat (a : Field10) : zext32 a = BitVec.ofNat 32 a.toNat := by
  apply BitVec.eq_of_toNat_eq
  have := a.isLt
  rw [zext32_toNat, BitVec.toNat_ofNat]
  omega

theorem iFetch_of_lt {s : State} (h : s.pc.toNat < s.cfg.imemWords) :
    iFetch s = .ok (Memory.read s.imem s.pc.toNat) := if_pos h

theorem iFetch_of_le {s : State} (h : s.cfg.imemWords ≤ s.pc.toNat) : iFetch s = .error (.pcRange s.pc) :=
  if_neg (by omega)

theorem memRead_of_lt {s : State} {addr : Word} (h : addr.toNat < s.cfg.dmemWords) :
    memRead s addr = .ok (Memory.read s.dmem addr.toNat) := if_pos h

theorem memRead_of_le {s : State} {addr : Word} (h : s.cfg.dmemWords ≤ addr.toNat) :
    memRead s addr = .error (.dataAddress addr s.pc) := if_neg (by omega)

theorem memWrite_of_lt {s : State} {addr v : Word} (h : addr.toNat < s.cfg.dmemWords) :
    memWrite s addr v = .ok (s.withDataWord addr v) := if_pos h

theorem memWrite_of_le {s : State} {addr v : Word} (h : s.cfg.dmemWords ≤ addr.toNat) :
    memWrite s addr v = .error (.dataAddress addr s.pc) := if_neg (by omega)

theorem resolveOperand_inRange {m : Mode} {a : Field10} {s : State} (h : operandInRange m a s) :
    resolveOperand m a s = .ok (operandValue m a s) := by
  cases m with
  | immediate => simp [resolveOperand, operandValue, zext32_eq_ofNat]
  | indirect =>
    have hlt : (zext32 a).toNat < s.cfg.dmemWords := by
      rw [zext32_toNat]
      exact h rfl
    simp only [resolveOperand, operandValue, memRead_of_lt hlt, zext32_toNat]

theorem resolveOperand_outOfRange {m : Mode} {a : Field10} {s : State} (h : ¬ operandInRange m a s) :
    resolveOperand m a s = .error (.dataAddress (BitVec.ofNat 32 a.toNat) s.pc) := by
  cases m with
  | immediate => exact absurd (fun e => nomatch e) h
  | indirect =>
    have hle : s.cfg.dmemWords ≤ (zext32 a).toNat := by
      rw [zext32_toNat]
      by_contra hlt
      exact h fun _ => by omega
    show memRead s (zext32 a) = _
    rw [memRead_of_le hle, zext32_eq_ofNat]

/-- In range, the multiplexer hands the operand's value on. -/
theorem withOperand_inRange {m : Mode} {a : Field10} {s : State} (h : operandInRange m a s)
    (k : Word → Result) : withOperand m a s k = k (operandValue m a s) := by
  simp only [withOperand, resolveOperand_inRange h]

/-- Out of range, the instruction faults and nothing else happens. -/
theorem withOperand_outOfRange {m : Mode} {a : Field10} {s : State} (h : ¬ operandInRange m a s)
    (k : Word → Result) :
    withOperand m a s k = .fault (.dataAddress (BitVec.ofNat 32 a.toNat) s.pc) := by
  simp only [withOperand, resolveOperand_outOfRange h, raise]

/-- Everything a resolved instruction can do: go on with the value, or fault on the field. -/
theorem withOperand_cases (m : Mode) (a : Field10) (s : State) (k : Word → Result) :
    operandInRange m a s ∧ withOperand m a s k = k (operandValue m a s) ∨
      ¬ operandInRange m a s ∧
        withOperand m a s k = .fault (.dataAddress (BitVec.ofNat 32 a.toNat) s.pc) := by
  by_cases h : operandInRange m a s
  · exact .inl ⟨h, withOperand_inRange h k⟩
  · exact .inr ⟨h, withOperand_outOfRange h k⟩

/-- A command takes effect only without a recorded fault and in its own run state. -/
theorem accept_next {s t : State} {legal : RunState} {cause : UsageCause} {r : Result}
    (h : accept s legal cause r = .next t) : s.fault = none ∧ s.run = legal ∧ r = .next t := by
  unfold accept at h
  split at h
  · cases h
  · split at h
    · exact ⟨‹_›, ‹_›, h⟩
    · cases h

end Sys2Proof.Machine
end

