-- ==== Sys2Proof/Laws/Exec.lean ====
section
/-! SUPPORT. What the execute phase can do, said once: the inversion lemma of `exec`. -/

namespace Sys2Proof.Machine

/-- Every way an instruction can give a next state. -/
inductive Effect (i : Instr) (s : State) : State → Prop where
  /-- NOP, and a conditional jump that is not taken. -/
  | nothing (h : i.op = .nop ∨ i.op ∈ [Op.jz, .jnz, .jc, .jnc]) : Effect i s s
  /-- HLT. -/
  | halt (h : i.op = .hlt) : Effect i s s.halt
  /-- A taken jump. -/
  | jump (h : i.op ∈ Op.jumps) (t : Word) : Effect i s (s.jumpTo t)
  /-- STORE, inside data memory. -/
  | store (h : i.op = .store) (addr : Word) (hr : addr.toNat < s.cfg.dmemWords) :
      Effect i s (s.withDataWord addr s.acc)
  /-- An accumulator write that leaves the carry. -/
  | acc (h : i.op ∈ [Op.load, .loadind, .and, .or, .xor, .not]) (v : Word) : Effect i s (s.writeAcc v)
  /-- An accumulator write with a carry. -/
  | accCarry (h : i.op ∈ Op.carryWriters) (v : Word) (c : Bool) :
      Effect i s ((s.writeAcc v).writeCarry c)

/-- An instruction that resolves its operand gives a next state only through its continuation. -/
theorem withOperand_next {m : Mode} {a : Field10} {s t : State} {k : Word → Result}
    (h : withOperand m a s k = .next t) : k (operandValue m a s) = .next t := by
  obtain ⟨-, e⟩ | ⟨-, e⟩ := withOperand_cases m a s k
  · rwa [e] at h
  · rw [e] at h
    cases h

theorem jumpIf_cases (s : State) (c : Bool) (t : Word) : s.jumpIf c t = s.jumpTo t ∨ s.jumpIf c t = s := by
  cases c
  · exact .inr rfl
  · exact .inl rfl

theorem effect_of_jumpIf {i : Instr} {s u : State} {c : Bool} {t : Word}
    (hj : i.op ∈ Op.jumps) (hc : i.op ∈ [Op.jz, .jnz, .jc, .jnc])
    (h : (Host.Outcome.next (s.jumpIf c t) : Result) = .next u) : Effect i s u := by
  cases h
  obtain e | e := jumpIf_cases s c t
  · rw [e]
    exact .jump hj t
  · rw [e]
    exact .nothing (.inr hc)

/-- The inversion lemma of `exec`. -/
theorem exec_next_effect {i : Instr} {s t : State} (h : exec i s = .next t) : Effect i s t := by
  cases i with
  | nop => cases h; exact .nothing (.inl rfl)
  | hlt => cases h; exact .halt rfl
  | load m a => cases withOperand_next h; exact .acc (by simp [Instr.op]) _
  | and m a => cases withOperand_next h; exact .acc (by simp [Instr.op]) _
  | or m a => cases withOperand_next h; exact .acc (by simp [Instr.op]) _
  | xor m a => cases withOperand_next h; exact .acc (by simp [Instr.op]) _
  | not => cases h; exact .acc (by simp [Instr.op]) _
  | add m a => cases withOperand_next h; exact .accCarry (by simp [Instr.op, Op.carryWriters]) _ _
  | sub m a => cases withOperand_next h; exact .accCarry (by simp [Instr.op, Op.carryWriters]) _ _
  | inc => cases h; exact .accCarry (by simp [Instr.op, Op.carryWriters]) _ _
  | dec => cases h; exact .accCarry (by simp [Instr.op, Op.carryWriters]) _ _
  | shl m a => cases withOperand_next h; exact .accCarry (by simp [Instr.op, Op.carryWriters]) _ _
  | shr m a => cases withOperand_next h; exact .accCarry (by simp [Instr.op, Op.carryWriters]) _ _
  | jmp m a => cases withOperand_next h; exact .jump (by simp [Instr.op, Op.jumps]) _
  | jz m a => exact effect_of_jumpIf (by simp [Instr.op, Op.jumps]) (by simp [Instr.op]) (withOperand_next h)
  | jnz m a => exact effect_of_jumpIf (by simp [Instr.op, Op.jumps]) (by simp [Instr.op]) (withOperand_next h)
  | jc m a => exact effect_of_jumpIf (by simp [Instr.op, Op.jumps]) (by simp [Instr.op]) (withOperand_next h)
  | jnc m a => exact effect_of_jumpIf (by simp [Instr.op, Op.jumps]) (by simp [Instr.op]) (withOperand_next h)
  | store m a =>
    have h := withOperand_next h
    by_cases hr : (operandValue m a s).toNat < s.cfg.dmemWords
    · rw [memWrite_of_lt hr] at h
      cases h
      exact .store rfl _ hr
    · rw [memWrite_of_le (by omega)] at h
      cases h
  | loadind m a =>
    have h := withOperand_next h
    by_cases hr : (operandValue m a s).toNat < s.cfg.dmemWords
    · rw [memRead_of_lt hr] at h
      cases h
      exact .acc (by simp [Instr.op]) _
    · rw [memRead_of_le (by omega)] at h
      cases h

/-- No instruction is refused. -/
theorem exec_not_refused (i : Instr) (s : State) (r : Refusal) : exec i s ≠ .refused r := by
  have hw : ∀ (m : Mode) (a : Field10) (k : Word → Result),
      (∀ v, k v ≠ .refused r) → withOperand m a s k ≠ .refused r := fun m a k hk => by
    obtain ⟨-, e⟩ | ⟨-, e⟩ := withOperand_cases m a s k
    · rw [e]; exact hk _
    · rw [e]; nofun
  cases i with
  | nop => nofun
  | inc => nofun
  | dec => nofun
  | not => nofun
  | hlt => nofun
  | load m a => exact hw m a _ fun _ => by nofun
  | add m a => exact hw m a _ fun _ => by nofun
  | sub m a => exact hw m a _ fun _ => by nofun
  | and m a => exact hw m a _ fun _ => by nofun
  | or m a => exact hw m a _ fun _ => by nofun
  | xor m a => exact hw m a _ fun _ => by nofun
  | shl m a => exact hw m a _ fun _ => by nofun
  | shr m a => exact hw m a _ fun _ => by nofun
  | jmp m a => exact hw m a _ fun _ => by nofun
  | jz m a => exact hw m a _ fun _ => by nofun
  | jnz m a => exact hw m a _ fun _ => by nofun
  | jc m a => exact hw m a _ fun _ => by nofun
  | jnc m a => exact hw m a _ fun _ => by nofun
  | store m a => exact hw m a _ fun v => by split <;> nofun
  | loadind m a => exact hw m a _ fun v => by split <;> nofun

end Sys2Proof.Machine
end

