-- ==== Sys2Proof/Laws/PerInstr.lean ====
section
/-! SUPPORT. Per instruction: the code, mode bit and operand bits that its word is packed from
(spec/30_encoding.md R60, R61, R86). -/

namespace Sys2Proof.Laws.Encoding

/-- The word of an instruction is packed from the code of its operation, and its operand is present
exactly when its operation takes one; a zero-operand word has zero mode and operand bits. -/
def Statement (i : Instr) : Prop :=
  encode i = pack { opc := codeOfOp i.op, m := i.fieldBits.1, a := i.fieldBits.2 } ∧
    i.op.arity = i.operand.toList.length ∧ (i.op.arity = 0 → i.fieldBits = (0, 0))

theorem nop : Statement .nop := ⟨rfl, rfl, fun _ => rfl⟩

theorem load (m : Mode) (a : Field10) : Statement (.load m a) := ⟨rfl, rfl, fun h => nomatch h⟩

theorem store (m : Mode) (a : Field10) : Statement (.store m a) := ⟨rfl, rfl, fun h => nomatch h⟩

theorem loadind (m : Mode) (a : Field10) : Statement (.loadind m a) := ⟨rfl, rfl, fun h => nomatch h⟩

theorem add (m : Mode) (a : Field10) : Statement (.add m a) := ⟨rfl, rfl, fun h => nomatch h⟩

theorem sub (m : Mode) (a : Field10) : Statement (.sub m a) := ⟨rfl, rfl, fun h => nomatch h⟩

theorem inc : Statement .inc := ⟨rfl, rfl, fun _ => rfl⟩

theorem dec : Statement .dec := ⟨rfl, rfl, fun _ => rfl⟩

theorem and (m : Mode) (a : Field10) : Statement (.and m a) := ⟨rfl, rfl, fun h => nomatch h⟩

theorem or (m : Mode) (a : Field10) : Statement (.or m a) := ⟨rfl, rfl, fun h => nomatch h⟩

theorem xor (m : Mode) (a : Field10) : Statement (.xor m a) := ⟨rfl, rfl, fun h => nomatch h⟩

theorem not : Statement .not := ⟨rfl, rfl, fun _ => rfl⟩

theorem shl (m : Mode) (a : Field10) : Statement (.shl m a) := ⟨rfl, rfl, fun h => nomatch h⟩

theorem shr (m : Mode) (a : Field10) : Statement (.shr m a) := ⟨rfl, rfl, fun h => nomatch h⟩

theorem jmp (m : Mode) (a : Field10) : Statement (.jmp m a) := ⟨rfl, rfl, fun h => nomatch h⟩

theorem jz (m : Mode) (a : Field10) : Statement (.jz m a) := ⟨rfl, rfl, fun h => nomatch h⟩

theorem jnz (m : Mode) (a : Field10) : Statement (.jnz m a) := ⟨rfl, rfl, fun h => nomatch h⟩

theorem jc (m : Mode) (a : Field10) : Statement (.jc m a) := ⟨rfl, rfl, fun h => nomatch h⟩

theorem jnc (m : Mode) (a : Field10) : Statement (.jnc m a) := ⟨rfl, rfl, fun h => nomatch h⟩

theorem hlt : Statement .hlt := ⟨rfl, rfl, fun _ => rfl⟩

end Sys2Proof.Laws.Encoding
end

