-- ==== Sys2Proof/Laws/Step.lean ====
section
/-! SUPPORT. What one step can do, said once: the inversion lemmas of the step cycle. -/

namespace Sys2Proof.Machine

/-- The first half of the cycle goes on only from a ready state, with the decoded instruction of the
fetched word and that word in `ir`. -/
theorem beginStep_ok {s u : State} {i : Instr} (h : beginStep s = .ok (i, u)) :
    s.ready ∧ decode (Memory.read s.imem s.pc.toNat) = .instr i ∧
      u = s.writeIr (Memory.read s.imem s.pc.toNat) := by
  unfold beginStep at h
  split at h
  · cases h
  · split at h
    · cases h
    · by_cases hlt : s.pc.toNat < s.cfg.imemWords
      · rw [iFetch_of_lt hlt] at h
        simp only at h
        split at h
        · cases h
        · cases h
          exact ⟨⟨‹_›, ‹_›, hlt⟩, ‹_›, rfl⟩
      · rw [iFetch_of_le (by omega)] at h
        cases h

/-- From a ready state whose fetched word decodes, the cycle begins with that instruction. -/
theorem beginStep_ready {s : State} {i : Instr} (hs : s.ready)
    (hd : decode (Memory.read s.imem s.pc.toNat) = .instr i) :
    beginStep s = .ok (i, s.writeIr (Memory.read s.imem s.pc.toNat)) := by
  obtain ⟨hf, hr, hlt⟩ := hs
  simp only [beginStep, hf, hr, iFetch_of_lt hlt, hd]

/-- A step from a ready state is the execute phase of the decoded instruction, then the advance. -/
theorem step_ready {s : State} {i : Instr} (hs : s.ready)
    (hd : decode (Memory.read s.imem s.pc.toNat) = .instr i) :
    step s = endStep (exec i (s.writeIr (Memory.read s.imem s.pc.toNat))) := by
  simp only [step, beginStep_ready hs hd]

/-- The inversion lemma of `step`: a next state comes from a ready state, through the execute phase of
the decoded instruction and the advance. -/
theorem step_next {s t : State} (h : step s = .next t) :
    s.ready ∧ ∃ i u, decode (Memory.read s.imem s.pc.toNat) = .instr i ∧
      exec i (s.writeIr (Memory.read s.imem s.pc.toNat)) = .next u ∧ t = u.advance := by
  unfold step at h
  split at h
  · cases h
  · rename_i i s1 hb
    obtain ⟨hs, hd, rfl⟩ := beginStep_ok hb
    cases he : exec i (s.writeIr (Memory.read s.imem s.pc.toNat)) with
    | next u =>
      rw [he] at h
      cases h
      exact ⟨hs, i, u, hd, he, rfl⟩
    | fault f => rw [he] at h; cases h
    | refused r => rw [he] at h; cases h

/-- No step is refused. -/
theorem step_not_refused (s : State) (r : Refusal) : step s ≠ .refused r := by
  unfold step
  split
  · nofun
  · rename_i i u _
    cases he : exec i u with
    | next v => nofun
    | fault f => nofun
    | refused r' => exact absurd he (exec_not_refused i u r')

end Sys2Proof.Machine
end

