-- ==== Sys2Proof/Tests/Slice0.lean ====
section
/-! SUPPORT. Tests of the model, with expected results from spec/95_test_vectors.md (the vector is named in
each docstring), and for every obligation with hypotheses a witness that meets them, clause by clause. -/

namespace Sys2Proof.Tests

open Sys2Proof Sys2Proof.Machine

/-! ## States for the tests -/

/-- The parameters of the vectors: IMEM_WORDS = DMEM_WORDS = 16, both flags reset to false. -/
def cfg16 : Config := { imemWords := 16, dmemWords := 16, resetZF := false, resetCF := false }

/-- A running state of the vectors: the given registers and data words, and the word `w` in the slot of the
pc; every other slot is 0, `ir` and the counter are 0. -/
def before (acc : Word) (zf cf : Bool) (pc : Word) (d : Memory 32) (w : IWord) : State :=
  { acc := acc, zf := zf, cf := cf, pc := pc, ir := 0, run := .running, steps := 0,
    imem := Memory.write [] pc.toNat w, dmem := d, fault := none, cfg := cfg16 }

/-- What a vector shows of a state. -/
structure Seen where
  acc : Word
  zf : Bool
  cf : Bool
  pc : Word
  dmem : Memory 32
  deriving DecidableEq, Repr

/-- What a vector shows of a next state. -/
def seen : Result → Option Seen
  | .next t => some { acc := t.acc, zf := t.zf, cf := t.cf, pc := t.pc, dmem := t.dmem }
  | .fault _ => none
  | .refused _ => none

/-- The state a result ends in, if it is a next state. -/
def nextOf : Result → Option State
  | .next t => some t
  | .fault _ => none
  | .refused _ => none

/-- The fault a result ends in, if it is one. -/
def faultOf : Result → Option Fault
  | .next _ => none
  | .fault f => some f
  | .refused _ => none

/-- The words of a translation, and its error. -/
def wordsOf : Except TranslationError (List IWord) → Option (List IWord)
  | .ok ws => some ws
  | .error _ => none

def errorOf : Except TranslationError (List IWord) → Option (ErrorKind × Nat)
  | .ok _ => none
  | .error e => some (e.kind, e.line)

/-- The state a run ends in when it ends normally. -/
def normalEnd : RunEnd → Option State
  | .normal s => some s
  | .abnormal _ _ => none
  | .unfinished _ => none

/-! ## Well-formedness refuses ill-formed terms -/

theorem test_config_refuses_empty_memories :
    Config.wf { cfg16 with imemWords := 0 } = false ∧ Config.wf { cfg16 with dmemWords := 0 } = false ∧
    Config.wf { cfg16 with imemWords := 1, dmemWords := 1 } = true := by decide

theorem test_operand_field_refuses_1024 :
    fitsOperandField 1024 = false ∧ fitsOperandField 1023 = true := by decide

theorem test_defined_refuses_code_20 :
    IWord.isDefined 0xA000 = false ∧ IWord.isDefined 0x9FFF = true := by decide

/-- An INC with mode and operand bits (L2.2.15) executes, but no assembler emits it. -/
theorem test_canonical_refuses_ignored_bits :
    IWord.isCanonical 0x37FF = false ∧ IWord.isCanonical 0x3000 = true ∧ IWord.isCanonical 0xF800 = false := by
  decide

theorem test_memory_refuses_wrong_order_repeats_and_zeros :
    ¬ Memory.wf ([(2, 5), (1, 5)] : Memory 32) ∧ ¬ Memory.wf ([(1, 5), (1, 6)] : Memory 32) ∧
    ¬ Memory.wf ([(1, 0)] : Memory 32) ∧ Memory.wf ([(1, 5), (2, 5)] : Memory 32) := by decide

theorem test_state_refuses_words_beyond_the_array :
    ¬ State.wf { State.powerOn cfg16 with dmem := [(16, 1)] } ∧
    ¬ State.wf { State.powerOn cfg16 with imem := [(16, 1)] } ∧
    ¬ State.wf (State.powerOn { cfg16 with dmemWords := 0 }) ∧
    State.wf { State.powerOn cfg16 with dmem := [(15, 1)], imem := [(15, 1)] } := by decide

/-! ## Decoding, each word written out as opcode, mode and operand field (30_encoding R54, R57, R60) -/

theorem test_decode_nop : decode (0b00000#5 ++ 0b0#1 ++ 0b0000000000#10) = .instr .nop := by decide

theorem test_decode_load :
    decode (0b00001#5 ++ 0b1#1 ++ 0b0000000011#10) = .instr (.load .indirect 3) := by decide

theorem test_decode_store :
    decode (0b00010#5 ++ 0b0#1 ++ 0b1111111111#10) = .instr (.store .immediate 1023) := by decide

theorem test_decode_loadind :
    decode (0b00011#5 ++ 0b1#1 ++ 0b0000000100#10) = .instr (.loadind .indirect 4) := by decide

theorem test_decode_add :
    decode (0b00100#5 ++ 0b0#1 ++ 0b1000000000#10) = .instr (.add .immediate 512) := by decide

theorem test_decode_sub :
    decode (0b00101#5 ++ 0b1#1 ++ 0b0000000001#10) = .instr (.sub .indirect 1) := by decide

theorem test_decode_inc : decode (0b00110#5 ++ 0b1#1 ++ 0b1111111111#10) = .instr .inc := by decide

theorem test_decode_dec : decode (0b00111#5 ++ 0b0#1 ++ 0b0000000000#10) = .instr .dec := by decide

theorem test_decode_and :
    decode (0b01000#5 ++ 0b0#1 ++ 0b0011111111#10) = .instr (.and .immediate 255) := by decide

theorem test_decode_or :
    decode (0b01001#5 ++ 0b1#1 ++ 0b0000000000#10) = .instr (.or .indirect 0) := by decide

theorem test_decode_xor :
    decode (0b01010#5 ++ 0b0#1 ++ 0b0000101010#10) = .instr (.xor .immediate 42) := by decide

theorem test_decode_not : decode (0b01011#5 ++ 0b0#1 ++ 0b0000000001#10) = .instr .not := by decide

theorem test_decode_shl :
    decode (0b01100#5 ++ 0b0#1 ++ 0b0000011111#10) = .instr (.shl .immediate 31) := by decide

theorem test_decode_shr :
    decode (0b01101#5 ++ 0b1#1 ++ 0b0000010000#10) = .instr (.shr .indirect 16) := by decide

theorem test_decode_jmp :
    decode (0b01110#5 ++ 0b0#1 ++ 0b0000000101#10) = .instr (.jmp .immediate 5) := by decide

theorem test_decode_jz :
    decode (0b01111#5 ++ 0b1#1 ++ 0b0000010100#10) = .instr (.jz .indirect 20) := by decide

theorem test_decode_jnz :
    decode (0b10000#5 ++ 0b0#1 ++ 0b0000000001#10) = .instr (.jnz .immediate 1) := by decide

theorem test_decode_jc :
    decode (0b10001#5 ++ 0b0#1 ++ 0b0000001001#10) = .instr (.jc .immediate 9) := by decide

theorem test_decode_jnc :
    decode (0b10010#5 ++ 0b1#1 ++ 0b0000000010#10) = .instr (.jnc .indirect 2) := by decide

theorem test_decode_hlt : decode (0b10011#5 ++ 0b1#1 ++ 0b1111111111#10) = .instr .hlt := by decide

theorem test_decode_illegal :
    decode (0b10100#5 ++ 0b0#1 ++ 0b0000000000#10) = .illegalOpcode 20 ∧
    decode (0b11111#5 ++ 0b1#1 ++ 0b1111111111#10) = .illegalOpcode 31 := by decide

/-- L1.5, L1.6 and L2.2.15 to L2.2.17: words of the encoder. -/
theorem test_encode :
    encode (.load .indirect 0) = 0x0C00 ∧ encode (.load .immediate 512) = 0x0A00 ∧
    encode .hlt = 0x9800 ∧ encode (.shl .immediate 31) = 0x601F ∧ encode .dec = 0x3800 := by decide

/-- L1.5: 0x9FFF unpacks to (19, 1, 1023), and the triple packs back. -/
theorem test_unpack : unpack 0x9FFF = ⟨19, 1, 1023⟩ ∧ pack ⟨19, 1, 1023⟩ = 0x9FFF := by decide

theorem test_decodeTableWord :
    decodeTableWord 16 0x2402 = some (.add .indirect 2) ∧ decodeTableWord 16 0xA000 = none := by decide

/-! ## One step of each instruction -/

/-- L2.1.4 -/
theorem test_load_indirect :
    seen (step (before 0 false false 0 [(3, 0xdeadbeef)] 0x0C03)) =
      some ⟨0xdeadbeef, false, false, 1, [(3, 0xdeadbeef)]⟩ := by decide

/-- L2.1.6 -/
theorem test_load_out_of_range :
    faultOf (step (before 1 false false 0 [] 0x0C10)) = some (.dataAddress 0x10 0) := by decide

/-- L2.1.9 -/
theorem test_store_through_pointer :
    seen (step (before 7 false false 0 [(0, 9)] 0x1400)) =
      some ⟨7, false, false, 1, [(0, 9), (9, 7)]⟩ := by decide

/-- L2.1.13: storing 0 over the only listed word, with the flags untouched. -/
theorem test_store_zero :
    seen (step (before 0 false true 0 [(5, 1)] 0x1005)) = some ⟨0, false, true, 1, []⟩ := by decide

/-- L2.1.14 -/
theorem test_loadind_immediate :
    seen (step (before 0 false false 0 [(4, 0xa)] 0x1804)) =
      some ⟨0xa, false, false, 1, [(4, 0xa)]⟩ := by decide

/-- L2.1.15 -/
theorem test_loadind_indirect :
    seen (step (before 0 false false 0 [(4, 0xa), (10, 0x55)] 0x1C04)) =
      some ⟨0x55, false, false, 1, [(4, 0xa), (10, 0x55)]⟩ := by decide

/-- L2.2.4 -/
theorem test_add_max_max :
    seen (step (before 0xffffffff false false 0 [(2, 0xffffffff)] 0x2402)) =
      some ⟨0xfffffffe, false, true, 1, [(2, 0xffffffff)]⟩ := by decide

/-- L2.2.5: the carry is written false. -/
theorem test_add_zero :
    seen (step (before 9 false true 0 [] 0x2000)) = some ⟨9, false, false, 1, []⟩ := by decide

/-- L2.2.7 -/
theorem test_sub_borrow :
    seen (step (before 3 false false 0 [] 0x2805)) = some ⟨0xfffffffe, false, true, 1, []⟩ := by decide

/-- L2.2.8 -/
theorem test_sub_equal :
    seen (step (before 5 false true 0 [] 0x2805)) = some ⟨0, true, false, 1, []⟩ := by decide

/-- L2.2.12 -/
theorem test_inc_wraps :
    seen (step (before 0xffffffff false false 0 [] 0x3000)) = some ⟨0, true, true, 1, []⟩ := by decide

/-- L2.2.15: a word with mode and operand bits. -/
theorem test_inc_ignores_fields :
    seen (step (before 5 false false 0 [] 0x37FF)) = some ⟨6, false, false, 1, []⟩ := by decide

/-- L2.2.16 -/
theorem test_dec_wraps :
    seen (step (before 0 false false 0 [] 0x3800)) = some ⟨0xffffffff, false, true, 1, []⟩ := by decide

/-- L2.2.17 -/
theorem test_dec_to_zero :
    seen (step (before 1 false true 0 [] 0x3800)) = some ⟨0, true, false, 1, []⟩ := by decide

/-- L2.3.2: the carry is unchanged. -/
theorem test_and_zero :
    seen (step (before 0xffffffff false true 0 [] 0x4000)) = some ⟨0, true, true, 1, []⟩ := by decide

/-- L2.3.3 -/
theorem test_and_indirect :
    seen (step (before 0xf0f0f0f0 false false 0 [(1, 0xff00ff00)] 0x4401)) =
      some ⟨0xf000f000, false, false, 1, [(1, 0xff00ff00)]⟩ := by decide

/-- L2.3.4 -/
theorem test_or_one :
    seen (step (before 0x80000000 false false 0 [] 0x4801)) =
      some ⟨0x80000001, false, false, 1, []⟩ := by decide

/-- L2.3.5: the zero flag is set by a zero result. -/
theorem test_or_zero : seen (step (before 0 false false 0 [] 0x4800)) = some ⟨0, true, false, 1, []⟩ := by
  decide

/-- L2.3.8 -/
theorem test_xor_immediate :
    seen (step (before 0xffffffff false false 0 [] 0x53FF)) =
      some ⟨0xfffffc00, false, false, 1, []⟩ := by decide

/-- L2.3.9 -/
theorem test_xor_indirect :
    seen (step (before 0x12345678 false false 0 [(2, 0xffffffff)] 0x5402)) =
      some ⟨0xedcba987, false, false, 1, [(2, 0xffffffff)]⟩ := by decide

/-- L2.3.10 -/
theorem test_not_of_zero : seen (step (before 0 false false 0 [] 0x5800)) = some ⟨1, false, false, 1, []⟩ := by
  decide

/-- L2.3.12: not the bitwise complement. -/
theorem test_not_of_ones :
    seen (step (before 0xffffffff false true 0 [] 0x5800)) = some ⟨0, true, true, 1, []⟩ := by decide

/-- L2.4.1 (L1.4 corrected by 90_conflicts C1). -/
theorem test_shl_31_of_one :
    seen (step (before 1 false false 0 [] 0x601F)) = some ⟨0x80000000, false, false, 1, []⟩ := by decide

/-- L2.4.7: the count is masked to 1. -/
theorem test_shl_33 :
    seen (step (before 0xffffffff false false 0 [] 0x6021)) =
      some ⟨0xfffffffe, false, true, 1, []⟩ := by decide

/-- L2.4.12 -/
theorem test_shr_31 :
    seen (step (before 0x40000000 false false 0 [] 0x681F)) = some ⟨0, true, true, 1, []⟩ := by decide

/-- L2.4.14: a count of 0 clears the carry. -/
theorem test_shr_0 : seen (step (before 5 false true 0 [] 0x6800)) = some ⟨5, false, false, 1, []⟩ := by
  decide

/-- L2.5.2: the pc wraps through 0xFFFFFFFF. -/
theorem test_jmp_zero : seen (step (before 0 false false 3 [] 0x7000)) = some ⟨0, false, false, 0, []⟩ := by
  decide

/-- L2.5.5: the jump checks no target. -/
theorem test_jmp_outside : seen (step (before 0 false false 0 [] 0x7064)) = some ⟨0, false, false, 100, []⟩ := by
  decide

/-- L2.5.6 -/
theorem test_jz_taken : seen (step (before 0 true false 2 [] 0x7807)) = some ⟨0, true, false, 7, []⟩ := by
  decide

/-- L2.5.8: a jump that is not taken resolves its operand all the same. -/
theorem test_jz_resolves :
    faultOf (step (before 0 false false 0 [] 0x7C14)) = some (.dataAddress 0x14 0) := by decide

/-- L2.5.9 -/
theorem test_jnz_taken : seen (step (before 0 false false 2 [] 0x8001)) = some ⟨0, false, false, 1, []⟩ := by
  decide

/-- L2.5.10 -/
theorem test_jnz_not_taken : seen (step (before 0 true false 2 [] 0x8001)) = some ⟨0, true, false, 3, []⟩ := by
  decide

/-- L2.5.11: JC is not taken on a carry. -/
theorem test_jc_not_taken : seen (step (before 0 false true 4 [] 0x8809)) = some ⟨0, false, true, 5, []⟩ := by
  decide

/-- L2.5.12: JC is taken on no carry. -/
theorem test_jc_taken : seen (step (before 0 false false 4 [] 0x8809)) = some ⟨0, false, false, 9, []⟩ := by
  decide

/-- L2.5.13 -/
theorem test_jnc_taken : seen (step (before 0 false false 4 [] 0x9000)) = some ⟨0, false, false, 0, []⟩ := by
  decide

/-- L2.5.14 -/
theorem test_jnc_not_taken : seen (step (before 0 false true 4 [] 0x9000)) = some ⟨0, false, true, 5, []⟩ := by
  decide

/-- L2.6.1 -/
theorem test_nop : seen (step (before 5 false false 3 [] 0x0000)) = some ⟨5, false, false, 4, []⟩ := by decide

/-- L2.6.2: Stopped, pc + 1, `Halted`, and no step counted. -/
theorem test_hlt :
    serve .step (before 5 true true 2 [] 0x9800) =
      ({ before 5 true true 2 [] 0x9800 with pc := 3, ir := 0x9800, run := .stopped }, .stepHalted) := by
  decide

/-! ## Faults, commands and inspection -/

/-- L2.7.1: `ir` keeps its old value. -/
theorem test_pc_range :
    serve .step { before 0 false false 4 [] 0 with cfg := { cfg16 with imemWords := 4 }, ir := 0x2003 } =
      ({ before 0 false false 4 [] 0 with
          cfg := { cfg16 with imemWords := 4 }, ir := 0x2003, fault := some (.pcRange 4) },
        .faulted (.pcRange 4)) := by decide

/-- The fault row of L2.1.12, with `ir` as 60_exceptions R115 has it (log entry 7): nothing changes but the
record. -/
theorem test_store_fault_is_precise :
    serve .step (before 7 false false 0 [(0, 0xffffffff)] 0x1400) =
      ({ before 7 false false 0 [(0, 0xffffffff)] 0x1400 with fault := some (.dataAddress 0xffffffff 0) },
        .faulted (.dataAddress 0xffffffff 0)) := by decide

/-- 60_exceptions R115: an illegal opcode fault leaves the fetched word in `ir`, and nothing else changes. -/
theorem test_illegal_fault_writes_ir :
    serve .step (before 7 false false 5 [] 0xA000) =
      ({ before 7 false false 5 [] 0xA000 with ir := 0xA000, fault := some (.illegalOpcode 0xA000 5) },
        .faulted (.illegalOpcode 0xA000 5)) := by decide

/-- The illegal word of program P7. -/
theorem test_illegal_opcode :
    faultOf (step (before 0 false false 5 [] 0xA000)) = some (.illegalOpcode 0xA000 5) := by decide

/-- L2.8.2 and L2.8.3 -/
theorem test_step_and_stop_at_power_on :
    (serve .step (State.powerOn cfg16)).2 = .faulted (.usage .stepWhileStopped) ∧
    (serve .stop (State.powerOn cfg16)).2 = .faulted (.usage .stopWhileStopped) := by decide

/-- L2.8.4 -/
theorem test_start_twice :
    responses [.start, .start] (State.powerOn cfg16) =
      [.done, .faulted (.usage .startWhileRunning)] := by decide

/-- L2.8.5 -/
theorem test_load_while_running :
    serve (.loadData [7]) (before 0 false false 0 [] 0) =
      ({ before 0 false false 0 [] 0 with fault := some (.usage (.loadWhileRunning .data)) },
        .faulted (.usage (.loadWhileRunning .data))) := by decide

/-- L2.8.10: `start()` keeps `ir`. -/
theorem test_start_keeps_ir :
    serve .start { before 9 false false 5 [] 0 with ir := 0x2003, run := .stopped } =
      ({ before 0 false false 0 [] 0 with ir := 0x2003 }, .done) := by decide

/-- L2.7.11: after a fault a command has no effect. -/
theorem test_command_after_a_fault :
    serve .start { State.powerOn cfg16 with fault := some (.pcRange 4) } =
      ({ State.powerOn cfg16 with fault := some (.pcRange 4) }, .ignored (.pcRange 4)) := by decide

/-- A short image is padded with 0, and a 0 word is not listed (60_exceptions R118). -/
theorem test_load_pads :
    (serve (.loadInstructions [0x0805, 0, 0x9800]) { State.powerOn cfg16 with imem := [(7, 1)] }).1.imem =
      [(0, 0x0805), (2, 0x9800)] := by decide

/-- L1.1, L3 P1: boot, and the end of the run. -/
theorem test_end_to_end :
    (normalEnd (runToEnd 3 (serveAll (bootCommands [0x0805, 0x2003, 0x9800] []) (State.powerOn cfg16)))).map
      (fun t => (t.acc, t.zf, t.cf, t.pc, t.ir, t.steps)) = some (8, false, false, 3, 0x9800, 2) := by decide

/-- L2.9.7 and L2.9.13: the decoded form of `ir`. -/
theorem test_inspect_ir :
    (inspect { before 0 false false 0 [] 0 with ir := 0x37FF }).irText = some ['I', 'N', 'C'] ∧
    (inspect { before 0 false false 0 [] 0 with ir := 0xA000 }).irText = none := by decide

/-- The codes of the table of 60_exceptions R113. -/
theorem test_fault_codes :
    [Fault.usage .startWhileRunning, .usage .stopWhileStopped, .usage .stepWhileStopped,
      .usage (.loadWhileRunning .data), .pcRange 0, .illegalOpcode 0 0, .dataAddress 0 0].map Fault.code =
      [1, 2, 3, 4, 5, 6, 7] := by decide

theorem test_reset_steps_after_fetch_word :
    seen (step (State.reset.withFetchWord 16 0x0805)) = some ⟨5, false, false, 1, []⟩ ∧
    runsSafely 1 (State.reset.withFetchWord 16 0x0805) = true := by decide

theorem test_core_is_the_machine : faultOf (Sys2Proof.core.step Sys2Proof.core.reset) =
    some (.usage .stepWhileStopped) := by decide

/-! ## Assembler, disassembler and images -/

/-- L2.9.3 and L2.9.4 -/
theorem test_disassemble :
    disassemble 0x0C00 = some "LOAD *0".toList ∧ disassemble 0x13FF = some "STORE 1023".toList := by decide

/-- L2.10.2, L2.10.3 and L2.10.4 -/
theorem test_assemble_operands :
    wordsOf (translateSource "LOAD *5   # comment".toList 16) = some [0x0C05] ∧
    wordsOf (translateSource "LOAD 0x3FF".toList 16) = some [0x0BFF] ∧
    wordsOf (translateSource "LOAD 010".toList 16) = some [0x0808] := by decide

/-- L2.10.6 to L2.10.9 -/
theorem test_assemble_malformed :
    [ "LOAD 08", "LOAD -1", "LOAD *", "LOAD 5#x" ].map (fun t => errorOf (translateSource t.toList 16)) =
      [ some (.malformedNumericLiteral, 0), some (.malformedNumericLiteral, 0),
        some (.malformedNumericLiteral, 0), some (.malformedNumericLiteral, 0) ] := by decide

/-- L2.10.11 and L2.10.13 -/
theorem test_assemble_mnemonic_and_count :
    errorOf (translateSource "load 5".toList 16) = some (.unrecognizedMnemonic, 0) ∧
    errorOf (translateSource "LOAD 5 6".toList 16) = some (.unexpectedExtraToken, 0) := by decide

/-- L2.10.16 -/
theorem test_assemble_blank_lines :
    wordsOf (translateSource "# header\n\nLOAD 1\nHLT".toList 16) = some [0x0801, 0x9800] := by decide

/-- L1.8 and L1.10 -/
theorem test_assemble_error_lines :
    errorOf (translateSource "LOAD 1\n\nFOO 1".toList 16) = some (.unrecognizedMnemonic, 2) ∧
    errorOf (translateSource "FOO\nLOAD 1\nHLT".toList 2) = some (.sizeLimitExceeded, 3) := by decide

/-- 30_encoding R75: the limit of a block is its IMEM_WORDS, so two lines do not fit one slot. -/
theorem test_translate_for_block :
    errorOf (translateForBlock { cfg16 with imemWords := 1 } "LOAD 1\nHLT".toList) =
      some (.sizeLimitExceeded, 2) := by decide

/-- The six names of 30_encoding R85 are different. -/
theorem test_error_categories :
    ([ErrorKind.sizeLimitExceeded, .valueOutOfRange, .unrecognizedMnemonic, .unexpectedExtraToken,
      .missingRequiredToken, .malformedNumericLiteral].map ErrorKind.category).Nodup := by decide

/-- A word image in both byte orders (20_memory R41). -/
theorem test_image_bytes :
    instructionImage .littleEndian [0x05, 0x08] = some [0x0805] ∧
    instructionImage .bigEndian [0x08, 0x05] = some [0x0805] ∧
    dataImage .littleEndian [0xef, 0xbe, 0xad, 0xde] = some [0xdeadbeef] ∧
    instructionImage .bigEndian [0x08] = none := by decide

/-! ## Witnesses: the hypotheses of each obligation are met, clause by clause, at boundary values -/

/-- A running state with an in-range pointer in word 0, an out-of-range one in word 1, and `w` in slot 15,
the last one, which the pc names. -/
def edge (w : IWord) : State := before 7 false true 15 [(0, 15), (1, 16)] w

/-- `edge`, Stopped. -/
def edgeStopped (w : IWord) : State := { edge w with run := .stopped }

theorem witness_OpcodeTableRowsMatch :
    (0x0BFF : IWord) &&& 0xF800 = (codeOfOp .load).setWidth 16 <<< 11 ∧
    (0x9800 : IWord) &&& 0xF800 = (codeOfOp .hlt).setWidth 16 <<< 11 ∧
    (0xA000 : IWord) &&& 0xF800 ≠ (codeOfOp .hlt).setWidth 16 <<< 11 := by decide

theorem witness_EveryWordIsDefinedOrIllegal :
    (0x9FFF : IWord).toNat < 0xA000 ∧ 0xA000 ≤ (0xA000 : IWord).toNat ∧ (0x07FF : IWord).toNat < 2048 ∧
    decode 0x07FF = .instr .nop ∧ decode 0x0800 ≠ .instr .nop := by decide

theorem witness_EveryWordIsDefinedOrIllegal_noOp : ∀ s, exec .nop s = .next s := fun _ => rfl

theorem witness_ZeroOperandBitsAreIgnored :
    (19 ∈ [0, 6, 7, 11, 19] ∧ (0x9FFF : IWord).toNat / 2048 = 19) ∧
    (0 ∈ [0, 6, 7, 11, 19] ∧ (0x07FF : IWord).toNat / 2048 = 0) := by decide

/-- The reversed map, in which NOP has code 31 and HLT code 12. -/
def reversedCode (o : Op) : BitVec 5 := 31 - codeOfOp o

theorem witness_RoundTripUnderEveryOpcodeMap :
    (∀ o ∈ Op.all, lookupOp (31 - reversedCode o) = some o) ∧ reversedCode .nop = 31 := by decide

theorem witness_RoundTripUnderEveryOpcodeMap_hypothesis (o : Op) :
    (fun c => lookupOp (31 - c)) (reversedCode o) = some o := by cases o <;> decide

theorem witness_DisassemblyAssemblesBack : 1 ≤ 1 := by decide

/-- A program that fills the limit exactly. -/
theorem witness_TranslatedWordsAreCanonical :
    wordsOf (translateSource "INC\nHLT".toList 2) = some [0x3000, 0x9800] ∧
    ((State.powerOn { cfg16 with imemWords := 2 }).fault = none ∧
      (State.powerOn { cfg16 with imemWords := 2 }).run = .stopped ∧
      wordsOf (translateForBlock (State.powerOn { cfg16 with imemWords := 2 }).cfg "INC\nHLT".toList) =
        some [0x3000, 0x9800]) := by decide

theorem witness_OperandLiteralRange :
    literalValue (splitMarker "*1023".toList).2 = some 1023 ∧
    literalValue (splitMarker "1024".toList).2 = some 1024 ∧ Op.load.arity = 1 ∧ Op.jnc.arity = 1 := by decide

theorem witness_LineCheckOrder :
    (codeTokens "FOO 1".toList = ["FOO".toList, "1".toList] ∧ lookupMnemonic "FOO".toList = none) ∧
    (codeTokens "HLT x".toList = ["HLT".toList, "x".toList] ∧ lookupMnemonic "HLT".toList = some .hlt ∧
      literalValue (splitMarker "x".toList).2 = none) ∧
    (codeTokens "LOAD 1024".toList = ["LOAD".toList, "1024".toList] ∧
      lookupMnemonic "LOAD".toList = some .load ∧
      literalValue (splitMarker "1024".toList).2 = some 1024) ∧
    (codeTokens "LOAD 1023 6".toList = ["LOAD".toList, "1023".toList, "6".toList] ∧
      literalValue (splitMarker "1023".toList).2 = some 1023 ∧
      Op.load.arity < ["1023".toList, "6".toList].length) ∧
    (codeTokens "LOAD".toList = ["LOAD".toList] ∧ ([] : List Text).length < Op.load.arity) := by decide

theorem witness_TranslationErrorLines :
    1 < (linesOf "LOAD 1\nHLT".toList).countP holdsCode ∧
    (linesOf "# c\nLOAD 1\n\nJMP 9 9".toList).countP holdsCode ≤ 2 ∧
    errorOf (translateSource "# c\nLOAD 1\n\nJMP 9 9".toList 2) = some (.unexpectedExtraToken, 3) ∧
    (linesOf "# c\nLOAD 1\n\nJMP 9 9".toList)[1]? = some "LOAD 1".toList := by decide

theorem witness_BlankLinesTakeNoSlot :
    codeTokens "  # c".toList = [] ∧ wordsOf (translateSource "# c\nLOAD 1\n\nHLT".toList 2) = some [0x0801, 0x9800] ∧
    ((linesOf "# c\nLOAD 1\n\nHLT".toList).filter holdsCode)[1]? = some "HLT".toList := by decide

/-- The two clauses of the one-operand result statements: word 15 is in range and word 16 is not, and an
Immediate operand always is. -/
theorem witness_OperandClauses :
    operandInRange .indirect 15 (edge 0) ∧ ¬ operandInRange .indirect 16 (edge 0) ∧
    operandInRange .immediate 1023 (edge 0) := by decide

theorem witness_LoadWritesTheOperand :
    operandInRange .indirect 15 (edge 0) ∧ ¬ operandInRange .indirect 16 (edge 0) := by decide

/-- The three clauses of STORE and LOADIND, and the canonical memory of STORE's. -/
theorem witness_StoreWritesTheAddressedWord :
    (operandInRange .indirect 0 (edge 0) ∧ (operandValue .indirect 0 (edge 0)).toNat < (edge 0).cfg.dmemWords ∧
      Memory.wf (edge 0).dmem ∧ 14 ≠ (operandValue .indirect 0 (edge 0)).toNat) ∧
    ¬ operandInRange .indirect 16 (edge 0) ∧
    operandInRange .indirect 1 (edge 0) ∧ (edge 0).cfg.dmemWords ≤ (operandValue .indirect 1 (edge 0)).toNat := by
  decide

theorem witness_LoadindReadsThroughTheOperand :
    (operandInRange .immediate 15 (edge 0) ∧
      (operandValue .immediate 15 (edge 0)).toNat < (edge 0).cfg.dmemWords) ∧
    ¬ operandInRange .indirect 16 (edge 0) ∧
    operandInRange .immediate 16 (edge 0) ∧
      (edge 0).cfg.dmemWords ≤ (operandValue .immediate 16 (edge 0)).toNat := by decide

theorem witness_AddWritesSumAndCarry :
    operandInRange .indirect 0 (edge 0) ∧ ¬ operandInRange .indirect 1023 (edge 0) := by decide

theorem witness_SubWritesDifferenceAndBorrow :
    operandInRange .indirect 0 (edge 0) ∧ ¬ operandInRange .indirect 1023 (edge 0) := by decide

theorem witness_BitwiseLogicResults :
    operandInRange .indirect 15 (edge 0) ∧ ¬ operandInRange .indirect 16 (edge 0) ∧
    Instr.xor .indirect 16 ∈ [Instr.and .indirect 16, .or .indirect 16, .xor .indirect 16] := by decide

theorem witness_NotIsLogicalNegation :
    (before 0 false false 0 [] 0).acc = 0 ∧ (before 1 false false 0 [] 0).acc ≠ 0 ∧
    (nextOf (exec .not (before 1 false false 0 [] 0))).isSome = true := by decide

/-- The counts 0 and 31, at the two ends of the range. -/
theorem witness_ShlResultAndCarry :
    (operandInRange .immediate 32 (edge 0) ∧ 0 = (operandValue .immediate 32 (edge 0)).toNat % 32) ∧
    (operandInRange .immediate 31 (edge 0) ∧ 31 = (operandValue .immediate 31 (edge 0)).toNat % 32) ∧
    ¬ operandInRange .indirect 16 (edge 0) := by decide

theorem witness_ShrResultAndCarry :
    (operandInRange .immediate 32 (edge 0) ∧ 0 = (operandValue .immediate 32 (edge 0)).toNat % 32) ∧
    (operandInRange .immediate 1023 (edge 0) ∧ 31 = (operandValue .immediate 1023 (edge 0)).toNat % 32) ∧
    ¬ operandInRange .indirect 16 (edge 0) := by decide

theorem witness_JmpWritesTargetLessOne :
    operandInRange .immediate 0 (edge 0) ∧ ¬ operandInRange .indirect 16 (edge 0) := by decide

theorem witness_JzAndJnzAreComplements :
    operandInRange .indirect 15 (edge 0) ∧ ¬ operandInRange .indirect 16 (edge 0) ∧
    Instr.jnz .indirect 16 ∈ [Instr.jz .indirect 16, .jnz .indirect 16] := by decide

theorem witness_JcAndJncJumpOnClearCarry :
    operandInRange .indirect 15 (edge 0) ∧ ¬ operandInRange .indirect 16 (edge 0) ∧
    Instr.jnc .indirect 16 ∈ [Instr.jc .indirect 16, .jnc .indirect 16] := by decide

theorem witness_NopAndHltResults :
    ((edge 0x07FF).ready ∧ decode (edge 0x07FF).fetched = .instr .nop) ∧
    ((edge 0x9800).ready ∧ decode (edge 0x9800).fetched = .instr .hlt) := by decide

theorem witness_AccumulatorInstructionsFrame :
    (Instr.and .indirect 0).op ∈ Op.accWriters ∧ (Instr.and .indirect 0).op ∉ Op.carryWriters ∧
    (nextOf (exec (.and .indirect 0) (edge 0))).isSome = true ∧
    Instr.dec.op ∈ Op.accWriters ∧ (nextOf (exec .dec (edge 0))).isSome = true := by decide

theorem witness_StoreFrame :
    (nextOf (exec (.store .indirect 0) (edge 0))).isSome = true ∧ Memory.wf (edge 0).dmem ∧
    resolveOperand .indirect 0 (edge 0) = .ok 15 ∧ 16 ≠ (15 : Word).toNat :=
  ⟨by decide, by decide, rfl, by decide⟩

theorem witness_ControlInstructionsFrame :
    (Instr.jmp .immediate 3).op ∈ Op.jumps ++ [.nop, .hlt] ∧ Instr.hlt.op ∈ Op.jumps ++ [.nop, .hlt] ∧
    Instr.hlt.op ∉ Op.jumps ∧ (Instr.jmp .immediate 3).op ≠ .hlt ∧
    (nextOf (exec (.jmp .immediate 3) (edge 0))).isSome = true ∧
    (nextOf (exec .hlt (edge 0))).isSome = true := by decide

/-- A next state and a fault of the execute phase, both in the last slot. -/
theorem witness_StepRunsTheDecodedInstruction :
    ((edge 0x0C01).ready ∧ decode (edge 0x0C01).fetched = .instr (.load .indirect 1) ∧
      (nextOf (exec (.load .indirect 1) { edge 0x0C01 with ir := (edge 0x0C01).fetched })).isSome = true) ∧
    ((edge 0x0C10).ready ∧ decode (edge 0x0C10).fetched = .instr (.load .indirect 16) ∧
      faultOf (exec (.load .indirect 16) { edge 0x0C10 with ir := (edge 0x0C10).fetched }) =
        some (.dataAddress 16 15)) := by decide

theorem witness_StepAdvancesPcAndCounter :
    ((nextOf (step (edge 0x9800))).isSome = true ∧ decode (edge 0x9800).fetched = .instr .hlt) ∧
    ((nextOf (step (edge 0x3000))).isSome = true ∧ decode (edge 0x3000).fetched = .instr .inc ∧
      Instr.inc.op ∉ Op.jumps) ∧
    (nextOf (issue .start (edgeStopped 0))).isSome = true := by decide

/-- JMP to slot 0, the boundary of `t - 1`, and to 16, past the end. -/
theorem witness_JumpsLandOnTheirTarget :
    ((edge 0x7000).ready ∧ decode (edge 0x7000).fetched = .instr (.jmp .immediate 0) ∧
      operandInRange .immediate 0 (edge 0x7000)) ∧
    ((edge 0x7401).ready ∧ decode (edge 0x7401).fetched = .instr (.jmp .indirect 1) ∧
      operandInRange .indirect 1 (edge 0x7401) ∧
      (nextOf (step (edge 0x7401))).any (fun t => decide (t.cfg.imemWords ≤ t.pc.toNat)) = true) ∧
    ((edge 0x7807).ready ∧ decode (edge 0x7807).fetched = .instr (.jz .immediate 7) ∧
      (edge 0x7807).zf = false) := by decide

theorem witness_HaltedExactlyAfterHlt :
    ((edge 0x9800).ready ∧ decode (edge 0x9800).fetched = .instr .hlt) ∧
    ((edge 0).ready ∧ decode (edge 0).fetched = .instr .nop ∧ Instr.nop ≠ .hlt ∧
      (nextOf (step (edge 0))).isSome = true) ∧
    ((serve .step (edge 0xA000)).2 ≠ .stepHalted ∧ (serve .step (edge 0xA000)).2 ≠ .stepContinue) := by decide

/-- A STORE into the last word of a well-formed state. -/
theorem witness_StepKeepsWellFormed :
    (edge 0x1400).wf ∧ (nextOf (step (edge 0x1400))).isSome = true := by decide

theorem witness_CommandsKeepWellFormed : (edge 0x1400).wf := by decide

theorem witness_PowerOnIsWellFormed : Config.wf { cfg16 with imemWords := 1, dmemWords := 1 } = true := by decide

theorem witness_ZeroFlagFollowsAccumulatorWrites :
    ((nextOf (exec (.load .immediate 0) (edge 0))).isSome = true ∧ (Instr.load .immediate 0).op ∈ Op.accWriters) ∧
    ((nextOf (exec (.store .immediate 0) (edge 0))).isSome = true ∧
      (Instr.store .immediate 0).op ∉ Op.accWriters) ∧
    (Command.stop ≠ .start ∧ Command.stop ≠ .step ∧ (nextOf (issue .stop (edge 0))).isSome = true) := by decide

theorem witness_ZeroRelationIsKept :
    ((nextOf (step (edge 0x3000))).isSome = true ∧ decode (edge 0x3000).fetched = .instr .inc ∧
      Instr.inc.op ∈ Op.accWriters) ∧
    ((edge 0).zeroTracks ∧ (nextOf (step (edge 0))).isSome = true) ∧
    ((nextOf (issue .start (edgeStopped 0))).isSome = true ∧ (edgeStopped 0).cfg.resetZF = false) ∧
    ((before 0 false false 0 [] 0x7807).acc = 0 ∧ (before 0 false false 0 [] 0x7807).zf = false ∧
      (nextOf (step (before 0 false false 0 [] 0x7807))).isSome = true ∧
      decode (before 0 false false 0 [] 0x7807).fetched = .instr (.jz .immediate 7)) ∧
    ((nextOf (step (before 0 false false 0 [] 0x8007))).isSome = true ∧
      decode (before 0 false false 0 [] 0x8007).fetched = .instr (.jnz .immediate 7)) := by decide

theorem witness_CarryWrittenByTheSixAlone :
    ((Instr.shl .immediate 32).op ∈ Op.carryWriters ∧
      (nextOf (exec (.shl .immediate 32) (edge 0))).isSome = true) ∧
    ((Instr.load .immediate 0).op ∉ Op.carryWriters ∧
      (nextOf (exec (.load .immediate 0) (edge 0))).isSome = true) := by decide

theorem witness_OnlyConditionalJumpsReadFlags :
    ((Instr.jc .immediate 0).op ∉ [Op.jz, .jnz] ∧ (nextOf (exec (.jc .immediate 0) (edge 0))).isSome = true ∧
      faultOf (exec (.jc .indirect 16) (edge 0)) = some (.dataAddress 16 15)) ∧
    ((Instr.jz .immediate 0).op ∉ [Op.jc, .jnc] ∧ (nextOf (exec (.jz .immediate 0) (edge 0))).isSome = true ∧
      faultOf (exec (.jz .indirect 16) (edge 0)) = some (.dataAddress 16 15)) := by decide

theorem witness_InstructionMemoryChangesOnlyByLoad :
    (nextOf (step (edge 0x1400))).isSome = true ∧
    (nextOf (issue (.loadInstructions [1]) (edgeStopped 0))).any
      (fun t => decide (t.imem ≠ (edgeStopped 0).imem)) = true := by decide

theorem witness_CounterAndIrAreUnobservable :
    (nextOf (step (edge 0x9800))).isSome = true ∧ faultOf (step (edge 0xA000)) = some (.illegalOpcode 0xA000 15) := by
  decide

/-- NOP in slot 14, HLT in slot 15. -/
theorem witness_NormalEndCountsTheStepsBeforeHlt :
    (normalEnd (runToEnd 2 { edge 0x9800 with pc := 14 })).map (fun t => (t.pc, t.steps)) = some (16, 1) := by
  decide

theorem witness_ZeroSlotsRunOffTheEnd :
    (edge 0).ready ∧ (edge 0).cfg.imemWords < 2 ^ 32 ∧
    ∀ k, (edge 0).pc.toNat ≤ k → k < (edge 0).cfg.imemWords → Memory.read (edge 0).imem k = 0 :=
  ⟨by decide, by decide, fun _ _ _ => rfl⟩

theorem witness_FaultIsRecordedAndFinal :
    (serve .start (edge 0)).2 = .faulted (.usage .startWhileRunning) ∧
    ({ edge 0 with fault := some (.pcRange 16) } : State).fault = some (.pcRange 16) := by decide

/-- A fault of each kind: usage, pc range, illegal opcode and data address. -/
theorem witness_FaultsArePrecise :
    (serve .start (edge 0)).2 = .faulted (.usage .startWhileRunning) ∧
    (serve .step { edge 0 with pc := 16 }).2 = .faulted (.pcRange 16) ∧
    (serve .step (edge 0xF800)).2 = .faulted (.illegalOpcode 0xF800 15) ∧
    (serve .step (edge 0x1401)).2 = .faulted (.dataAddress 16 15) := by decide

theorem witness_StepFaultPriority :
    (Command.start ≠ .step ∧ faultOf (issue .start (edge 0)) = some (.usage .startWhileRunning)) ∧
    ((edgeStopped 0xA000).fault = none ∧ (edgeStopped 0xA000).run = .stopped) ∧
    (({ edge 0 with pc := 16 } : State).run = .running ∧
      ({ edge 0 with pc := 16 } : State).cfg.imemWords ≤ ({ edge 0 with pc := 16 } : State).pc.toNat) ∧
    ((edge 0xA000).ready ∧ 0xA000 ≤ (edge 0xA000).fetched.toNat) ∧
    ((edge 0x1410).ready ∧ decode (edge 0x1410).fetched = .instr (.store .indirect 16) ∧
      (Instr.store .indirect 16).operand = some (.indirect, 16) ∧ ¬ operandInRange .indirect 16 (edge 0x1410)) ∧
    ((edge 0x1401).ready ∧ decode (edge 0x1401).fetched = .instr (.store .indirect 1) ∧
      operandInRange .indirect 1 (edge 0x1401) ∧
      (edge 0x1401).cfg.dmemWords ≤ (operandValue .indirect 1 (edge 0x1401)).toNat) := by decide

/-- DMEM_WORDS = 1024 and a pointer to 1024, one past the end. -/
theorem witness_DataAddressFaultsExactlyWhenOutOfRange :
    1024 ≤ ({ edge 0 with cfg := Config.default, dmem := [(0, 1024)] } : State).cfg.dmemWords ∧
    faultOf (exec (.loadind .indirect 0) { edge 0 with cfg := Config.default, dmem := [(0, 1024)] }) =
      some (.dataAddress 1024 15) := by decide

theorem witness_IllegalWordFaultsAtDecode :
    (edge 0xA000).ready ∧ 0xA000 ≤ (edge 0xA000).fetched.toNat := by decide

theorem witness_StartAndStopCommands :
    (edge 0).fault = none ∧ (edge 0).run = .running ∧
    (edgeStopped 0).fault = none ∧ (edgeStopped 0).run = .stopped := by decide

/-- Images of exactly the array's length. -/
theorem witness_LoadCommands :
    ((edgeStopped 0).fault = none ∧ (edgeStopped 0).run = .stopped) ∧
    ((edge 0).fault = none ∧ (edge 0).run = .running) ∧
    (List.replicate 16 (1 : IWord)).length ≤ (edgeStopped 0).cfg.imemWords ∧
    (List.replicate 16 (1 : Word)).length ≤ (edgeStopped 0).cfg.dmemWords := by decide

/-- An image of one word more than the array is refused (log entry 11). -/
theorem test_overlong_image :
    serve (.loadData (List.replicate 17 1)) (State.powerOn cfg16) =
      (State.powerOn cfg16, .refused (.imageTooLong .data 16)) := by decide

theorem witness_BootLeadsToSlotZero :
    (edgeStopped 0).fault = none ∧ (edgeStopped 0).run = .stopped ∧ (edgeStopped 0).cfg.wf = true ∧
    (List.replicate 16 (1 : IWord)).length ≤ (edgeStopped 0).cfg.imemWords ∧
    ([42] : List Word).length ≤ (edgeStopped 0).cfg.dmemWords := by decide

theorem witness_InspectionShowsTheState :
    0xA000 ≤ ({ edge 0 with ir := 0xA000 } : State).ir.toNat ∧
    decode ({ edge 0 with ir := 0x9FFF } : State).ir = .instr .hlt ∧ 15 < (edge 0).cfg.imemWords ∧
    15 < (edge 0).cfg.dmemWords := by decide

theorem witness_EqualReadingMemoriesAreEqual :
    Memory.wf (edge 0).dmem ∧ Memory.wf (edge 0).dmem ∧
    ∀ a, Memory.read (edge 0).dmem a = Memory.read (edge 0).dmem a :=
  ⟨by decide, by decide, fun _ => rfl⟩

/-- From the reset state and from a state whose pc is past the end. -/
theorem witness_FetchWordRunsNext :
    (State.reset.cfg.wf = true ∧ Memory.wf State.reset.imem ∧ decodeTableWord 16 0x9800 = some .hlt) ∧
    (({ edge 0x2003 with pc := 16 } : State).cfg.wf = true ∧
      Memory.wf ({ edge 0x2003 with pc := 16 } : State).imem ∧
      decodeTableWord 16 0x1401 = some (.store .indirect 1)) ∧
    14 ≠ ((edge 0).withFetchWord 16 0x9800).pc.toNat := by decide

end Sys2Proof.Tests
end

section
/-! PROOFS. Decoding an encoded instruction under an arbitrary opcode map (spec/30_encoding.md R55, R56, R63, R73). -/

namespace Sys2Proof

/-- The shifts of R55 put the three fields side by side: at each bit of the word only one of them is read. -/
@[simp] theorem unpack_pack (f : Fields) : unpack (pack f) = f := by
  obtain ⟨opc, m, a⟩ := f
  simp only [unpack, pack, Fields.mk.injEq]
  refine ⟨?opc, ?m, ?a⟩
  case opc =>
    ext i hi
    have ha : a.getLsbD (11 + i) = false := BitVec.getLsbD_of_ge _ _ (by omega)
    have hm : m.getLsbD (11 + i - 10) = false := BitVec.getLsbD_of_ge _ _ (by omega)
    have hword : 11 + i < 16 ∧ i < 16 := by omega
    simp [ha, hm, hword, BitVec.getLsbD_eq_getElem hi]
  case m =>
    ext i hi
    have hword : 10 + i < 11 ∧ 10 + i < 16 ∧ i < 16 := by omega
    simp [hword, BitVec.getLsbD_eq_getElem hi]
  case a =>
    ext i hi
    have hword : i < 11 ∧ i < 16 := by omega
    simp [hi, hword]

/-- The decoder reads back the fields that `pack` wrote, so only the looked-up code matters. -/
theorem decodeWith_pack {lookup : BitVec 5 → Option Op} {f : Fields} {o : Op} (h : lookup f.opc = some o) :
    decodeWith lookup (pack f) = .instr (o.instr (modeOfBit f.m) f.a) := by
  simp [decodeWith, h]

/-- Settles O8: the fields survive packing, the lookup undoes the code, and operation and field bits give
the instruction back. -/
theorem roundTripUnderEveryOpcodeMap : Obligations.RoundTripUnderEveryOpcodeMap := by
  intro lookup code hcode i
  have hlookup : lookup (i.fieldsWith code).opc = some i.op := hcode i.op
  calc decodeWith lookup (encodeWith code i)
      = .instr (i.op.instr (modeOfBit i.fieldBits.1) i.fieldBits.2) := decodeWith_pack hlookup
    _ = .instr i := by rw [Op.instr_fieldBits]

end Sys2Proof
end

section
/-! PROOFS. What one instruction, one step and one host command leave as they were, field by field: read off
the inversion lemmas of `exec`, `step` and `issue` (spec/10_state.md R15 to R28). -/

namespace Sys2Proof.Machine

/-! ### The groups of operations exclude each other -/

theorem accWriters_write_nothing_else :
    ∀ o ∈ Op.accWriters, o ∉ Op.jumps ∧ o ≠ .nop ∧ o ≠ .hlt ∧ o ≠ .store := by decide

theorem control_writes_no_destination :
    ∀ o ∈ Op.jumps ++ [.nop, .hlt], o ∉ Op.accWriters ∧ o ∉ Op.carryWriters ∧ o ≠ .store := by decide

theorem accWriters_of_carryWriters : ∀ o ∈ Op.carryWriters, o ∈ Op.accWriters := by decide

theorem accWriters_of_plain : ∀ o ∈ [Op.load, .loadind, .and, .or, .xor, .not], o ∈ Op.accWriters := by
  decide

theorem jumps_of_conditional : ∀ o ∈ [Op.jz, .jnz, .jc, .jnc], o ∈ Op.jumps := by decide

theorem instr_of_op_hlt {i : Instr} (h : i.op = .hlt) : i = .hlt := by
  cases i with
  | hlt => rfl
  | _ => cases h

theorem instr_of_op_jz {i : Instr} (h : i.op = .jz) : ∃ m a, i = .jz m a := by
  cases i with
  | jz m a => exact ⟨m, a, rfl⟩
  | _ => cases h

/-! ### Fields across an instruction -/

section Exec

variable {i : Instr} {s t : State}

/-- No instruction writes these (10_state R13). -/
theorem exec_frame (h : exec i s = .next t) :
    t.ir = s.ir ∧ t.steps = s.steps ∧ t.fault = s.fault ∧ t.cfg = s.cfg ∧ t.imem = s.imem := by
  cases exec_next_effect h <;> exact ⟨rfl, rfl, rfl, rfl, rfl⟩

theorem exec_pc (h : exec i s = .next t) (hi : i.op ∉ Op.jumps) : t.pc = s.pc := by
  cases exec_next_effect h with
  | jump hj _ => exact absurd hj hi
  | _ => rfl

theorem exec_run (h : exec i s = .next t) (hi : i.op ≠ .hlt) : t.run = s.run := by
  cases exec_next_effect h with
  | halt hh => exact absurd hh hi
  | _ => rfl

theorem exec_dmem (h : exec i s = .next t) (hi : i.op ≠ .store) : t.dmem = s.dmem := by
  cases exec_next_effect h with
  | store hst _ _ => exact absurd hst hi
  | _ => rfl

theorem exec_cf (h : exec i s = .next t) (hi : i.op ∉ Op.carryWriters) : t.cf = s.cf := by
  cases exec_next_effect h with
  | accCarry hc _ _ => exact absurd hc hi
  | _ => rfl

theorem exec_zf_acc (h : exec i s = .next t) (hi : i.op ∉ Op.accWriters) : t.zf = s.zf ∧ t.acc = s.acc := by
  cases exec_next_effect h with
  | acc ha _ => exact absurd (accWriters_of_plain _ ha) hi
  | accCarry hc _ _ => exact absurd (accWriters_of_carryWriters _ hc) hi
  | _ => exact ⟨rfl, rfl⟩

/-- An accumulator write recomputes the zero flag (10_state R21). -/
theorem exec_zeroTracks (h : exec i s = .next t) (hi : i.op ∈ Op.accWriters) : t.zeroTracks := by
  obtain ⟨hjump, hnop, hhlt, hstore⟩ := accWriters_write_nothing_else _ hi
  cases exec_next_effect h with
  | acc _ _ => rfl
  | accCarry _ _ _ => rfl
  | nothing hn =>
    obtain hn | hn := hn
    · exact absurd hn hnop
    · exact absurd (jumps_of_conditional _ hn) hjump
  | halt hh => exact absurd hh hhlt
  | jump hj _ => exact absurd hj hjump
  | store hst _ _ => exact absurd hst hstore

end Exec

theorem exec_jz_pc {m : Mode} {a : Field10} {s t : State} (h : exec (.jz m a) s = .next t) :
    t.pc = if s.zf then operandValue m a s - 1 else s.pc := by
  cases withOperand_next h
  exact State.jumpIf_pc s s.zf _

theorem exec_jnz_pc {m : Mode} {a : Field10} {s t : State} (h : exec (.jnz m a) s = .next t) :
    t.pc = if !s.zf then operandValue m a s - 1 else s.pc := by
  cases withOperand_next h
  exact State.jumpIf_pc s (!s.zf) _

/-! ### A step whose instruction is known -/

theorem step_next_of_decode {s t : State} {i : Instr} (h : step s = .next t)
    (hd : decode s.fetched = .instr i) :
    s.ready ∧ ∃ u, exec i (s.writeIr s.fetched) = .next u ∧ t = u.advance := by
  obtain ⟨hs, j, u, hj, he, rfl⟩ := step_next h
  obtain rfl : i = j := Decoded.instr.inj (hd.symm.trans hj)
  exact ⟨hs, u, he, rfl⟩

/-- Over a whole step too, the zero flag and the accumulator are written by `Op.accWriters` alone. -/
theorem step_zf_acc {s t : State} {i : Instr} (h : step s = .next t) (hd : decode s.fetched = .instr i)
    (hi : i.op ∉ Op.accWriters) : t.zf = s.zf ∧ t.acc = s.acc := by
  obtain ⟨-, u, he, rfl⟩ := step_next_of_decode h hd
  simpa using exec_zf_acc he hi

theorem step_zeroTracks_of_accWriter {s t : State} {i : Instr} (h : step s = .next t)
    (hd : decode s.fetched = .instr i) (hi : i.op ∈ Op.accWriters) : t.zeroTracks := by
  obtain ⟨-, u, he, rfl⟩ := step_next_of_decode h hd
  simpa [State.zeroTracks] using exec_zeroTracks he hi

/-! ### What a host command can do -/

/-- Every way a command can give a next state (60_exceptions R116 to R118). -/
inductive CommandEffect (s : State) : Command → State → Prop where
  | start (hf : s.fault = none) (hr : s.run = .stopped) : CommandEffect s .start s.started
  | stop (hf : s.fault = none) (hr : s.run = .running) : CommandEffect s .stop s.halt
  | step {t : State} (h : Sys2Proof.Machine.step s = .next t) : CommandEffect s .step t
  | loadInstructions (img : List IWord) (hf : s.fault = none) (hr : s.run = .stopped)
      (hlen : img.length ≤ s.cfg.imemWords) :
      CommandEffect s (.loadInstructions img) { s with imem := Memory.ofImage img }
  | loadData (img : List Word) (hf : s.fault = none) (hr : s.run = .stopped)
      (hlen : img.length ≤ s.cfg.dmemWords) :
      CommandEffect s (.loadData img) { s with dmem := Memory.ofImage img }

/-- The inversion lemma of `issue`. -/
theorem issue_next_effect {c : Command} {s t : State} (h : issue c s = .next t) : CommandEffect s c t := by
  cases c with
  | start =>
    obtain ⟨hf, hr, h⟩ := accept_next h
    cases h
    exact .start hf hr
  | stop =>
    obtain ⟨hf, hr, h⟩ := accept_next h
    cases h
    exact .stop hf hr
  | step => exact .step h
  | loadInstructions img =>
    obtain ⟨hf, hr, h⟩ := accept_next h
    split at h
    · cases h
      exact .loadInstructions img hf hr ‹_›
    · cases h
  | loadData img =>
    obtain ⟨hf, hr, h⟩ := accept_next h
    split at h
    · cases h
      exact .loadData img hf hr ‹_›
    · cases h

theorem issue_start_next {s t : State} (h : issue .start s = .next t) : t = s.started := by
  cases issue_next_effect h
  rfl

end Sys2Proof.Machine
end

section
/-! PROOFS. The well-formedness of states under every step and every host command
(spec/10_state.md R30, R31, spec/60_exceptions.md R113, R120). -/

namespace Sys2Proof.Machine

/-- STORE is the one instruction that writes a memory, and it writes inside the array. -/
theorem exec_wf {i : Instr} {s t : State} (hs : s.wf) (h : exec i s = .next t) : t.wf := by
  cases exec_next_effect h with
  | store _ addr hr =>
    obtain ⟨hcfg, hiwf, hiwithin, hdwf, hdwithin⟩ := hs
    exact ⟨hcfg, hiwf, hiwithin, Memory.write_wf hdwf _ _, Memory.write_within hdwithin hr _⟩
  | _ => exact hs

theorem advance_wf {s : State} (hs : s.wf) : s.advance.wf := by simpa [State.wf] using hs

theorem recordFault_wf {s : State} (f : Fault) (hs : s.wf) : (s.recordFault f).wf := by
  simpa [State.wf] using hs

theorem step_wf {s t : State} (hs : s.wf) (h : step s = .next t) : t.wf := by
  obtain ⟨-, i, u, -, he, rfl⟩ := step_next h
  exact advance_wf (exec_wf (s := s.writeIr s.fetched) hs he)

theorem issue_wf {c : Command} {s t : State} (hs : s.wf) (h : issue c s = .next t) : t.wf := by
  obtain ⟨hcfg, hiwf, hiwithin, hdwf, hdwithin⟩ := id hs
  cases issue_next_effect h with
  | start _ _ => exact hs
  | stop _ _ => exact hs
  | step h => exact step_wf hs h
  | loadInstructions img _ _ hlen =>
    exact ⟨hcfg, Memory.ofImage_wf img, Memory.ofImage_within hlen, hdwf, hdwithin⟩
  | loadData img _ _ hlen =>
    exact ⟨hcfg, hiwf, hiwithin, Memory.ofImage_wf img, Memory.ofImage_within hlen⟩

/-- A served command ends in the issued state, in the state with the fault recorded, or where it began. -/
theorem serve_wf (c : Command) {s : State} (hs : s.wf) : (serve c s).1.wf := by
  unfold serve
  split
  · exact hs
  · split
    · exact issue_wf hs ‹_›
    · exact recordFault_wf _ hs
    · exact hs

/-- Settles O38: the execute phase keeps the state well-formed, and the fetch and the advance write none of
the fields it speaks of. -/
theorem stepKeepsWellFormed : Obligations.StepKeepsWellFormed := fun _ _ hs h => step_wf hs h

/-- Settles O39, by induction on the commands. -/
theorem commandsKeepWellFormed : Obligations.CommandsKeepWellFormed := by
  intro cs
  induction cs with
  | nil => exact fun s hs => hs
  | cons c cs ih => exact fun s hs => ih (serve c s).1 (serve_wf c hs)

end Sys2Proof.Machine
end

section
/-! PROOFS. The accumulator, the flags and the pc: who writes them (spec/10_state.md R15 to R28). -/

namespace Sys2Proof.Machine

@[simp] theorem operandValue_writeIr (m : Mode) (a : Field10) (s : State) (w : IWord) :
    operandValue m a (s.writeIr w) = operandValue m a s := by cases m <;> rfl

theorem started_zeroTracks_iff (s : State) : s.started.zeroTracks ↔ s.cfg.resetZF = true := by
  simp [State.zeroTracks]

theorem step_zeroTracks {s t : State} (hs : s.zeroTracks) (h : step s = .next t) : t.zeroTracks := by
  obtain ⟨-, i, -, hd, -, -⟩ := step_next h
  by_cases hi : i.op ∈ Op.accWriters
  · exact step_zeroTracks_of_accWriter h hd hi
  · obtain ⟨hzf, hacc⟩ := step_zf_acc h hd hi
    rwa [State.zeroTracks, hzf, hacc]

/-- A JZ after a clear zero flag goes on to the next slot. -/
theorem step_jz_pc {s t : State} {m : Mode} {a : Field10} (hzf : s.zf = false) (h : step s = .next t)
    (hd : decode s.fetched = .instr (.jz m a)) : t.pc = s.pc + 1 := by
  obtain ⟨-, u, he, rfl⟩ := step_next_of_decode h hd
  simp [exec_jz_pc he, hzf]

/-- A JNZ after a clear zero flag jumps to its operand: the handler's `- 1` meets the cycle's `+ 1`. -/
theorem step_jnz_pc {s t : State} {m : Mode} {a : Field10} (hzf : s.zf = false) (h : step s = .next t)
    (hd : decode s.fetched = .instr (.jnz m a)) : t.pc = operandValue m a s := by
  obtain ⟨-, u, he, rfl⟩ := step_next_of_decode h hd
  simp [exec_jnz_pc he, hzf]

/-- Settles O42: a writer establishes the relation, any other step leaves both its sides, and `start()`
writes accumulator 0 with RESET_ZF. -/
theorem zeroRelationIsKept : Obligations.ZeroRelationIsKept := by
  refine ⟨fun s t i h hd hi => step_zeroTracks_of_accWriter h hd hi, fun s t hs h => step_zeroTracks hs h,
    fun s t h => ?start, fun s t i hacc hzf h hd hi => ?afterStart⟩
  case start =>
    obtain rfl := issue_start_next h
    exact ⟨started_zeroTracks_iff s, fun hz => ⟨rfl, hz⟩⟩
  case afterStart =>
    obtain ⟨hzf', hacc'⟩ := step_zf_acc h hd hi
    refine ⟨hacc'.trans hacc, hzf'.trans hzf, fun hjz => ?_, fun m a hjnz => ?_⟩
    · obtain ⟨m, a, rfl⟩ := instr_of_op_jz hjz
      exact step_jz_pc hzf h hd
    · subst hjnz
      exact step_jnz_pc hzf h hd

/-- Settles O31, field by field. -/
theorem accumulatorInstructionsFrame : Obligations.AccumulatorInstructionsFrame := by
  intro i s t hi h
  obtain ⟨hjump, -, hhlt, hstore⟩ := accWriters_write_nothing_else _ hi
  obtain ⟨hir, hsteps, hfault, hcfg, himem⟩ := exec_frame h
  exact ⟨exec_pc h hjump, hir, exec_run h hhlt, hsteps, hfault, hcfg, exec_cf h,
    fun b => by rw [himem], fun b => by rw [exec_dmem h hstore]⟩

/-- Settles O33, field by field. -/
theorem controlInstructionsFrame : Obligations.ControlInstructionsFrame := by
  intro i s t hi h
  obtain ⟨hwriter, hcarry, hstore⟩ := control_writes_no_destination _ hi
  obtain ⟨hir, hsteps, hfault, hcfg, himem⟩ := exec_frame h
  obtain ⟨hzf, hacc⟩ := exec_zf_acc h hwriter
  exact ⟨hacc, hzf, exec_cf h hcarry, hir, hsteps, hfault, hcfg, exec_pc h, exec_run h,
    fun b => by rw [himem], fun b => by rw [exec_dmem h hstore]⟩

/-- The counter goes up unless the step halted (10_state R28). -/
theorem step_steps {s t : State} {i : Instr} (h : step s = .next t) (hd : decode s.fetched = .instr i) :
    t.steps = if i = .hlt then s.steps else s.steps + 1 := by
  obtain ⟨⟨-, hrun, -⟩, u, he, rfl⟩ := step_next_of_decode h hd
  by_cases hi : i = .hlt
  · subst hi
    cases he
    simp
  · obtain ⟨-, hsteps, -⟩ := exec_frame he
    have hu : u.run = .running := (exec_run he fun hop => hi (instr_of_op_hlt hop)).trans hrun
    simp [hi, hu, hsteps]

/-- Settles O35: the execute phase leaves `pc` (but for a jump), `ir` and the counter to the cycle. -/
theorem stepAdvancesPcAndCounter : Obligations.StepAdvancesPcAndCounter := by
  refine ⟨fun _ _ _ h hd => ⟨fun hi => ?pc, ?ir, step_steps h hd⟩, fun _ _ h => ?start⟩
  case pc =>
    obtain ⟨-, u, he, rfl⟩ := step_next_of_decode h hd
    simp [exec_pc he hi]
  case ir =>
    obtain ⟨-, u, he, rfl⟩ := step_next_of_decode h hd
    obtain ⟨hir, -⟩ := exec_frame he
    simp [hir]
  case start =>
    obtain rfl := issue_start_next h
    exact ⟨rfl, rfl⟩

/-- Settles O41, for the execute phase, the step and the other host commands in turn. -/
theorem zeroFlagFollowsAccumulatorWrites : Obligations.ZeroFlagFollowsAccumulatorWrites := by
  refine ⟨fun _ _ _ h => ⟨exec_zeroTracks h, exec_zf_acc h⟩, fun s t _ h hd => ?step,
    fun c s t hstart hstep h => ?command⟩
  case step =>
    split
    · exact step_zeroTracks_of_accWriter h hd ‹_›
    · exact (step_zf_acc h hd ‹_›).1
  case command =>
    cases issue_next_effect h with
    | start _ _ => exact absurd rfl hstart
    | step _ => exact absurd rfl hstep
    | stop _ _ => exact ⟨rfl, rfl⟩
    | loadInstructions _ _ _ _ => exact ⟨rfl, rfl⟩
    | loadData _ _ _ _ => exact ⟨rfl, rfl⟩

/-- The six do not read the carry, and each writes it last. -/
theorem exec_carryWriter_old_cf {i : Instr} (hi : i.op ∈ Op.carryWriters) (s : State) (c : Bool) :
    exec i { s with cf := c } = exec i s := by
  cases i with
  | add m a => rfl
  | sub m a => rfl
  | inc => rfl
  | dec => rfl
  | shl m a => rfl
  | shr m a => rfl
  | _ => simp [Instr.op, Op.carryWriters] at hi

/-- Settles O43: the six overwrite the carry without reading it, and the others leave it. -/
theorem carryWrittenByTheSixAlone : Obligations.CarryWrittenByTheSixAlone := fun _ s =>
  ⟨fun hi c _ h => (exec_carryWriter_old_cf hi s c).trans h, fun hi _ h => exec_cf h hi⟩

end Sys2Proof.Machine
end

section
/-! PROOFS. What a program cannot observe: the flags, but for the conditional jumps, the step counter and the
stale `ir` (spec/10_state.md R23, R33). -/

namespace Sys2Proof.Machine

/-- `Shadow k keepZf keepCf s` holds of the states that differ from `s` only in the counter, which is `k`,
and in the flags not kept. -/
inductive Shadow (k : Nat) (keepZf keepCf : Prop) (s : State) : State → Prop where
  | mk (z c : Bool) (hz : keepZf → z = s.zf) (hc : keepCf → c = s.cf) :
      Shadow k keepZf keepCf s { s with zf := z, cf := c, steps := k }

/-- Two results are next states in a relation, or one and the same fault. -/
inductive Agree (R : State → State → Prop) : Result → Result → Prop where
  | next {t t' : State} (h : R t t') : Agree R (.next t) (.next t')
  | fault (f : Fault) : Agree R (.fault f) (.fault f)

section Shadow

variable {k : Nat} {keepZf keepCf : Prop} {s s' : State}

theorem Shadow.writeAcc (h : Shadow k keepZf keepCf s s') (v : Word) :
    Shadow k keepZf keepCf (s.writeAcc v) (s'.writeAcc v) := by
  obtain ⟨z, c, -, hc⟩ := h
  exact ⟨zeroFlag v, c, fun _ => rfl, hc⟩

theorem Shadow.writeCarry (h : Shadow k keepZf keepCf s s') (c : Bool) :
    Shadow k keepZf keepCf (s.writeCarry c) (s'.writeCarry c) := by
  obtain ⟨z, _, hz, -⟩ := h
  exact ⟨z, c, hz, fun _ => rfl⟩

theorem Shadow.jumpTo (h : Shadow k keepZf keepCf s s') (t : Word) :
    Shadow k keepZf keepCf (s.jumpTo t) (s'.jumpTo t) := by
  obtain ⟨z, c, hz, hc⟩ := h
  exact ⟨z, c, hz, hc⟩

theorem Shadow.jumpIf (h : Shadow k keepZf keepCf s s') (b : Bool) (t : Word) :
    Shadow k keepZf keepCf (s.jumpIf b t) (s'.jumpIf b t) := by
  cases b
  · exact h
  · exact h.jumpTo t

theorem Shadow.halt (h : Shadow k keepZf keepCf s s') : Shadow k keepZf keepCf s.halt s'.halt := by
  obtain ⟨z, c, hz, hc⟩ := h
  exact ⟨z, c, hz, hc⟩

/-- The operand is resolved from data memory and the pc, which shadows share. -/
theorem Shadow.withOperand_agree {m : Mode} {a : Field10} {f f' : Word → Result}
    (h : Shadow k keepZf keepCf s s') (hf : ∀ v, Agree (Shadow k keepZf keepCf) (f v) (f' v)) :
    Agree (Shadow k keepZf keepCf) (withOperand m a s f) (withOperand m a s' f') := by
  obtain ⟨z, c, hz, hc⟩ := h
  have hsame : resolveOperand m a { s with zf := z, cf := c, steps := k } = resolveOperand m a s := by
    cases m <;> rfl
  unfold withOperand
  rw [hsame]
  split
  · exact hf _
  · exact .fault _

/-- An instruction runs alike from a state and from its shadow, if the shadow keeps the flag that the
instruction reads. -/
theorem exec_shadow {i : Instr} (h : Shadow k keepZf keepCf s s') (hzf : i.op ∈ [Op.jz, .jnz] → keepZf)
    (hcf : i.op ∈ [Op.jc, .jnc] → keepCf) :
    Agree (Shadow k keepZf keepCf) (exec i s) (exec i s') := by
  have hs := h
  obtain ⟨z, c, hz, hc⟩ := h
  cases i with
  | nop => exact .next hs
  | hlt => exact .next hs.halt
  | not => exact .next (hs.writeAcc _)
  | inc | dec => exact .next ((hs.writeAcc _).writeCarry _)
  | load m a | and m a | or m a | xor m a => exact hs.withOperand_agree fun v => .next (hs.writeAcc _)
  | add m a | sub m a | shl m a | shr m a =>
    exact hs.withOperand_agree fun v => .next ((hs.writeAcc _).writeCarry _)
  | jmp m a => exact hs.withOperand_agree fun t => .next (hs.jumpTo t)
  | jz m a | jnz m a =>
    obtain rfl := hz (hzf (by simp [Instr.op]))
    exact hs.withOperand_agree fun t => .next (hs.jumpIf _ t)
  | jc m a | jnc m a =>
    obtain rfl := hc (hcf (by simp [Instr.op]))
    exact hs.withOperand_agree fun t => .next (hs.jumpIf _ t)
  | store m a =>
    refine hs.withOperand_agree fun addr => ?_
    by_cases hr : addr.toNat < s.cfg.dmemWords
    · simp only [memWrite, hr, if_true]
      exact .next ⟨z, c, hz, hc⟩
    · simp only [memWrite, hr, if_false]
      exact .fault _
  | loadind m a =>
    refine hs.withOperand_agree fun addr => ?_
    by_cases hr : addr.toNat < s.cfg.dmemWords
    · simp only [memRead, hr, if_true]
      exact .next (hs.writeAcc _)
    · simp only [memRead, hr, if_false]
      exact .fault _

end Shadow

theorem Agree.of_next {R : State → State → Prop} {r r' : Result} {t : State} (h : Agree R r r')
    (hr : r = .next t) : ∃ t', r' = .next t' ∧ R t t' := by
  cases h with
  | next h => cases hr; exact ⟨_, rfl, h⟩
  | fault f => cases hr

theorem Agree.of_fault {R : State → State → Prop} {r r' : Result} {f : Fault} (h : Agree R r r')
    (hr : r = .fault f) : r' = .fault f := by
  cases h with
  | next h => cases hr
  | fault f => exact hr

/-- The advance carries a relation over, if it does so from the states that the execute phase can answer. -/
theorem endStep_agree {R R' : State → State → Prop} {r r' : Result} (h : Agree R r r')
    (hR : ∀ t t', r = .next t → R t t' → R' t.advance t'.advance) : Agree R' (endStep r) (endStep r') := by
  cases h with
  | next h => exact .next (hR _ _ rfl h)
  | fault f => exact .fault f

/-- Settles O44: a state with the flag changed is a shadow that keeps the other flag. -/
theorem onlyConditionalJumpsReadFlags : Obligations.OnlyConditionalJumpsReadFlags := by
  refine fun i s b => ⟨fun hi => ?zero, fun hi => ?carry⟩
  case zero =>
    have hs : Shadow s.steps False True s { s with zf := b } := ⟨b, s.cf, False.elim, fun _ => rfl⟩
    have hagree := exec_shadow (i := i) hs hi fun _ => trivial
    refine ⟨fun t h => ?_, fun f h => hagree.of_fault h⟩
    obtain ⟨-, hsteps, -⟩ := exec_frame h
    obtain ⟨_, ht', z, c, -, hc⟩ := hagree.of_next h
    exact ⟨_, ht', by rw [hc trivial, ← hsteps]⟩
  case carry =>
    have hs : Shadow s.steps True False s { s with cf := b } := ⟨s.zf, b, fun _ => rfl, False.elim⟩
    have hagree := exec_shadow (i := i) hs (fun _ => trivial) hi
    refine ⟨fun t h => ?_, fun f h => hagree.of_fault h⟩
    obtain ⟨-, hsteps, -⟩ := exec_frame h
    obtain ⟨_, ht', z, c, hz, -⟩ := hagree.of_next h
    exact ⟨_, ht', by rw [hz trivial, ← hsteps]⟩

/-- The first half of the cycle overwrites `ir` and carries the counter along unread. -/
theorem beginStep_counter_ir (s : State) (k : Nat) (w : IWord) :
    beginStep { s with steps := k, ir := w } =
      (beginStep s).map fun p => (p.1, { p.2 with steps := k }) := by
  simp only [beginStep]
  split
  · rfl
  · split
    · rfl
    · rw [show iFetch { s with steps := k, ir := w } = iFetch s from rfl]
      split
      · rfl
      · split <;> rfl

/-- The second half adds to the counter without reading it. -/
theorem advance_counter (s : State) (k : Nat) :
    State.advance { s with steps := k } =
      { s.advance with steps := k + (s.advance.steps - s.steps) } := by
  cases h : s.run <;> simp [State.advance, h]

/-- Two states that differ in the counter and `ir` alone are shadows of each other once the fetch is done. -/
theorem step_counter_ir (s : State) (k : Nat) (w : IWord) :
    Agree (fun t t' => t' = { t with steps := k + (t.steps - s.steps) })
      (step s) (step { s with steps := k, ir := w }) := by
  unfold step
  rw [beginStep_counter_ir s k w]
  cases hb : beginStep s with
  | error f => exact .fault f
  | ok p =>
    obtain ⟨i, s1⟩ := p
    obtain ⟨-, -, rfl⟩ := beginStep_ok hb
    have hs : Shadow k True True (s.writeIr s.fetched) { s.writeIr s.fetched with steps := k } :=
      ⟨s.zf, s.cf, fun _ => rfl, fun _ => rfl⟩
    refine endStep_agree (exec_shadow (i := i) hs (fun _ => trivial) fun _ => trivial) ?_
    intro u u' he hu
    obtain ⟨-, hsteps, -⟩ := exec_frame he
    obtain ⟨z, c, hz, hc⟩ := hu
    obtain rfl := hz trivial
    obtain rfl := hc trivial
    have hcounter := advance_counter u k
    rwa [hsteps] at hcounter

/-- Settles O46, from the agreement of the two steps. -/
theorem counterAndIrAreUnobservable : Obligations.CounterAndIrAreUnobservable := by
  refine fun s k w => ⟨fun t h => ?_, fun f h => (step_counter_ir s k w).of_fault h⟩
  obtain ⟨_, ht', rfl⟩ := (step_counter_ir s k w).of_next h
  exact ht'

end Sys2Proof.Machine
end

section
/-! PROOFS. The memories: what the bytes of an image give back, who writes instruction memory, and when two
memories are the same data (spec/20_memory.md R34 to R36, R41, R51). -/

namespace Sys2Proof.Machine

/-! ### The bytes of an image -/

theorem iword_eq_append_bytes (w : IWord) : w.extractLsb' 8 8 ++ w.extractLsb' 0 8 = w :=
  calc w.extractLsb' 8 8 ++ w.extractLsb' 0 8
      = w.extractLsb' 0 16 := BitVec.extractLsb'_append_extractLsb'_eq_extractLsb' (by rfl)
    _ = w := BitVec.extractLsb'_eq_self

theorem word_eq_append_bytes (w : Word) :
    w.extractLsb' 24 8 ++ w.extractLsb' 16 8 ++ w.extractLsb' 8 8 ++ w.extractLsb' 0 8 = w :=
  calc w.extractLsb' 24 8 ++ w.extractLsb' 16 8 ++ w.extractLsb' 8 8 ++ w.extractLsb' 0 8
      = w.extractLsb' 16 16 ++ w.extractLsb' 8 8 ++ w.extractLsb' 0 8 := by
        rw [BitVec.extractLsb'_append_extractLsb'_eq_extractLsb' (by rfl)]
    _ = w.extractLsb' 8 24 ++ w.extractLsb' 0 8 := by
        rw [BitVec.extractLsb'_append_extractLsb'_eq_extractLsb' (by rfl)]
    _ = w.extractLsb' 0 32 := BitVec.extractLsb'_append_extractLsb'_eq_extractLsb' (by rfl)
    _ = w := BitVec.extractLsb'_eq_self

theorem instructionImage_bytesOfIWord_append (o : ByteOrder) (w : IWord) (rest : List (BitVec 8)) :
    instructionImage o (bytesOfIWord o w ++ rest) = (instructionImage o rest).map (w :: ·) := by
  cases o <;> simp [bytesOfIWord, instructionImage, iwordOfBytes, iword_eq_append_bytes]

theorem dataImage_bytesOfWord_append (o : ByteOrder) (w : Word) (rest : List (BitVec 8)) :
    dataImage o (bytesOfWord o w ++ rest) = (dataImage o rest).map (w :: ·) := by
  cases o <;> simp [bytesOfWord, dataImage, wordOfBytes, word_eq_append_bytes]

/-- A reader that takes one word's bytes off the front gives back every list of words. -/
theorem image_flatMap_bytes {α : Type} {image : List (BitVec 8) → Option (List α)}
    {bytes : α → List (BitVec 8)} (hnil : image [] = some [])
    (happend : ∀ w rest, image (bytes w ++ rest) = (image rest).map (w :: ·)) (ws : List α) :
    image (ws.flatMap bytes) = some ws := by
  induction ws with
  | nil => exact hnil
  | cons w ws ih => rw [List.flatMap_cons, happend, ih, Option.map_some]

/-- Settles O15: both readers take one word off the front, in either order. -/
theorem imageBytesRoundTrip : Obligations.ImageBytesRoundTrip := fun o =>
  ⟨image_flatMap_bytes rfl (instructionImage_bytesOfIWord_append o),
    image_flatMap_bytes rfl (dataImage_bytesOfWord_append o)⟩

/-! ### Who writes instruction memory -/

/-- A step writes neither instruction memory nor the parameters, and goes on only without a fault. -/
theorem step_imem_cfg_fault {s t : State} (h : step s = .next t) :
    t.imem = s.imem ∧ t.cfg = s.cfg ∧ t.fault = none := by
  obtain ⟨⟨hnone, -, -⟩, i, u, -, he, rfl⟩ := step_next h
  obtain ⟨-, -, hfault, hcfg, himem⟩ := exec_frame he
  simp [hfault, hcfg, himem, hnone]

/-- Settles O45: of the five commands only the instruction load writes instruction memory. -/
theorem instructionMemoryChangesOnlyByLoad : Obligations.InstructionMemoryChangesOnlyByLoad := by
  refine ⟨fun _ _ h => step_imem_cfg_fault h, fun c s t h hne => ?_⟩
  cases issue_next_effect h with
  | loadInstructions img _ hrun _ => exact ⟨hrun, img, rfl⟩
  | step h => exact absurd (step_imem_cfg_fault h).1 hne
  | start _ _ => exact absurd rfl hne
  | stop _ _ => exact absurd rfl hne
  | loadData _ _ _ _ => exact absurd rfl hne

/-! ### Memories that read alike -/

/-- What reads as no unlisted address does is listed. -/
theorem Memory.mem_of_read {w : Nat} {m : Memory w} {a : Nat} {v : BitVec w} (h : Memory.read m a = v)
    (hv : v ≠ 0) : (a, v) ∈ m := by
  induction m with
  | nil => exact absurd h.symm hv
  | cons c m ih =>
    rw [Memory.read_cons] at h
    split at h
    · subst a v
      exact List.mem_cons_self
    · exact List.mem_cons_of_mem c (ih h)

/-- The entries of a canonical memory are what its addresses read as, where that is not 0. -/
theorem Memory.mem_iff_read {w : Nat} {m : Memory w} (hm : Memory.wf m) (c : Nat × BitVec w) :
    c ∈ m ↔ Memory.read m c.1 = c.2 ∧ c.2 ≠ 0 :=
  ⟨fun hc => ⟨Memory.read_of_mem hm hc, hm.2 c hc⟩, fun ⟨hread, hv⟩ => Memory.mem_of_read hread hv⟩

/-- Settles O59: the reads fix the entries, and the rising addresses fix their order. -/
theorem equalReadingMemoriesAreEqual : Obligations.EqualReadingMemoriesAreEqual := by
  intro w m n hm hn hread
  have hmem : ∀ c, c ∈ m ↔ c ∈ n := fun c => by
    rw [Memory.mem_iff_read hm, Memory.mem_iff_read hn, hread]
  exact List.Pairwise.eq_of_mem_iff (r := InvImage (· < ·) Prod.fst) hm.1 hn.1 hmem

end Sys2Proof.Machine
end

section
/-! PROOFS. The fields of an instruction word and its decoding, word by word (spec/30_encoding.md R54 to R64, R73). -/

namespace Sys2Proof

/-! ### The fields in arithmetic -/

theorem unpack_opc_toNat (w : IWord) : (unpack w).opc.toNat = w.toNat / 2048 := by
  have := w.isLt
  rw [unpack, BitVec.extractLsb'_toNat, Nat.shiftRight_eq_div_pow]
  omega

theorem unpack_m_toNat (w : IWord) : (unpack w).m.toNat = w.toNat / 1024 % 2 := by
  rw [unpack, BitVec.extractLsb'_toNat, Nat.shiftRight_eq_div_pow]

theorem unpack_a_toNat (w : IWord) : (unpack w).a.toNat = w.toNat % 1024 := by
  rw [unpack, BitVec.extractLsb'_toNat, Nat.shiftRight_zero]

/-- The packed word is read off its own fields: they are the quotients and remainders of its value. -/
theorem pack_toNat (f : Fields) : (pack f).toNat = f.a.toNat + 1024 * f.m.toNat + 2048 * f.opc.toNat := by
  have hopc := unpack_opc_toNat (pack f)
  have hm := unpack_m_toNat (pack f)
  have ha := unpack_a_toNat (pack f)
  rw [unpack_pack] at hopc hm ha
  omega

theorem pack_unpack (w : IWord) : pack (unpack w) = w := by
  apply BitVec.eq_of_toNat_eq
  rw [pack_toNat, unpack_opc_toNat, unpack_m_toNat, unpack_a_toNat]
  omega

/-- Settles O1: the block's opcode map is one whose lookup undoes its codes. -/
theorem decodeOfEncodeIsTheInstruction : Obligations.DecodeOfEncodeIsTheInstruction :=
  roundTripUnderEveryOpcodeMap lookupOp codeOfOp lookupOp_codeOfOp

/-- Settles O2. -/
theorem packAndUnpackAreInverse : Obligations.PackAndUnpackAreInverse := ⟨unpack_pack, pack_unpack⟩

/-- Settles O3. -/
theorem fieldsStandAtTheirBits : Obligations.FieldsStandAtTheirBits :=
  ⟨pack_toNat, fun w => ⟨unpack_opc_toNat w, unpack_m_toNat w, unpack_a_toNat w⟩⟩

/-! ### The opcode lookup -/

theorem codeOfOp_of_lookupOp : ∀ c, ∀ o ∈ lookupOp c, codeOfOp o = c := by decide

theorem lookupOp_eq_some_iff {c : BitVec 5} {o : Op} : lookupOp c = some o ↔ codeOfOp o = c :=
  ⟨codeOfOp_of_lookupOp c o, fun h => h ▸ lookupOp_codeOfOp o⟩

theorem lookupOp_eq_none_iff {c : BitVec 5} : lookupOp c = none ↔ 20 ≤ c.toNat := by
  rw [← Option.not_isSome_iff_eq_none, lookupOp_isSome_iff, decide_eq_true_eq, not_lt]

theorem codeOfOp_toNat_lt (o : Op) : (codeOfOp o).toNat < 20 := by cases o <;> decide

/-! ### Decoding by the code -/

theorem decode_of_code {w : IWord} {o : Op} (h : codeOfOp o = (unpack w).opc) :
    decode w = .instr (o.instr (modeOfBit (unpack w).m) (unpack w).a) := by
  simp only [decode, decodeWith, lookupOp_eq_some_iff.mpr h]

theorem decode_of_illegal {w : IWord} (h : 20 ≤ w.toNat / 2048) :
    decode w = .illegalOpcode (unpack w).opc := by
  have hnone : lookupOp (unpack w).opc = none := lookupOp_eq_none_iff.mpr (by rwa [unpack_opc_toNat])
  simp only [decode, decodeWith, hnone]

/-- Every word decodes by a defined code or is illegal (30_encoding R64). -/
theorem code_defined_or_illegal (w : IWord) :
    (w.toNat / 2048 < 20 ∧ ∃ o, codeOfOp o = (unpack w).opc) ∨ 20 ≤ w.toNat / 2048 := by
  rw [← unpack_opc_toNat]
  cases h : lookupOp (unpack w).opc with
  | none => exact .inr (lookupOp_eq_none_iff.mp h)
  | some o =>
    have hcode := lookupOp_eq_some_iff.mp h
    exact .inl ⟨hcode ▸ codeOfOp_toNat_lt o, o, hcode⟩

theorem decode_illegal_iff (w : IWord) : (∃ c, decode w = .illegalOpcode c) ↔ 20 ≤ w.toNat / 2048 := by
  refine ⟨fun ⟨c, hc⟩ => ?_, fun h => ⟨_, decode_of_illegal h⟩⟩
  obtain ⟨-, o, ho⟩ | h := code_defined_or_illegal w
  · rw [decode_of_code ho] at hc
    cases hc
  · exact h

/-- The operation of a decoded word is the one of its code. -/
theorem decode_op_iff (w : IWord) (o : Op) :
    (∃ i, decode w = .instr i ∧ i.op = o) ↔ codeOfOp o = (unpack w).opc := by
  refine ⟨fun ⟨i, hi, hop⟩ => ?_, fun h => ⟨_, decode_of_code h, Op.instr_op _ _ _⟩⟩
  obtain ⟨-, o', ho'⟩ | h := code_defined_or_illegal w
  · rw [decode_of_code ho'] at hi
    cases hi
    rwa [← hop, Op.instr_op]
  · rw [decode_of_illegal h] at hi
    cases hi

theorem decode_nop_iff (w : IWord) : decode w = .instr .nop ↔ w.toNat < 2048 := by
  have hcode : codeOfOp .nop = (unpack w).opc ↔ w.toNat < 2048 := by
    rw [← BitVec.toNat_inj, unpack_opc_toNat, show (codeOfOp .nop).toNat = 0 from rfl]
    omega
  rw [← hcode]
  exact ⟨fun h => (decode_op_iff w .nop).mp ⟨_, h, rfl⟩, fun h => decode_of_code h⟩

/-! ### Arities and zero-operand words -/

theorem Op.arity_le_one (o : Op) : o.arity ≤ 1 := by cases o <;> decide

theorem encode_toNat (i : Instr) :
    (encode i).toNat = i.fieldBits.2.toNat + 1024 * i.fieldBits.1.toNat + 2048 * (codeOfOp i.op).toNat :=
  pack_toNat _

theorem zeroOperand_code_iff (o : Op) : (codeOfOp o).toNat ∈ [0, 6, 7, 11, 19] ↔ o.arity = 0 := by
  cases o <;> decide

theorem fieldBits_of_arity_zero {i : Instr} (h : i.op.arity = 0) : i.fieldBits = (0, 0) := by
  cases i with
  | nop | inc | dec | not | hlt => rfl
  | _ => cases h

theorem encode_toNat_of_arity_zero {i : Instr} (h : i.op.arity = 0) :
    (encode i).toNat = 2048 * (codeOfOp i.op).toNat := by
  rw [encode_toNat, fieldBits_of_arity_zero h]
  exact Nat.zero_add _

theorem Op.instr_of_arity_zero {o : Op} (h : o.arity = 0) (m : Mode) (a : Field10) :
    o.instr m a = o.instr .immediate 0 := by
  cases o with
  | nop | inc | dec | not | hlt => rfl
  | _ => cases h

/-! ### The pattern of a row -/

theorem modeOfBit_unpack (w : IWord) :
    modeOfBit (unpack w).m = if w.getLsbD 10 then .indirect else .immediate := by
  have hbit : (unpack w).m = BitVec.ofBool (w.getLsbD 10) := by
    ext i hi
    obtain rfl : i = 0 := by omega
    simp [unpack]
  rw [hbit]
  cases w.getLsbD 10 <;> rfl

/-- The mask of R60 keeps the code in place and nothing else. -/
theorem opcMask_eq_iff (w : IWord) (c : BitVec 5) :
    w &&& 0xF800 = c.setWidth 16 <<< 11 ↔ c = (unpack w).opc := by
  have hmask : w &&& 0xF800 = w >>> 11 <<< 11 := by
    rw [BitVec.shiftLeft_ushiftRight]
    rfl
  have hw := w.isLt
  have hc := c.isLt
  rw [hmask, ← BitVec.toNat_inj, ← BitVec.toNat_inj, unpack_opc_toNat]
  simp only [BitVec.toNat_shiftLeft, BitVec.toNat_ushiftRight, BitVec.toNat_setWidth,
    Nat.shiftLeft_eq, Nat.shiftRight_eq_div_pow]
  omega

/-- Settles O4: the three columns of the table are read off, and the mask picks the row of the code. -/
theorem opcodeTableRowsMatch : Obligations.OpcodeTableRowsMatch := by
  refine ⟨by decide, by decide, by decide, fun w => (decode_illegal_iff w).symm, fun w o => ?row⟩
  rw [opcMask_eq_iff]
  refine ⟨decode_op_iff w o, fun h => ?_⟩
  rw [decode_of_code h, modeOfBit_unpack]
  rfl

/-- Settles O7. -/
theorem listedWordsDecode : Obligations.ListedWordsDecode := by
  unfold Obligations.ListedWordsDecode
  decide

end Sys2Proof
end

section
/-! PROOFS. What decoded words do: no-ops, zero-operand instructions, the table of control signals, and the step
around an instruction (spec/30_encoding.md R63, R64, R69 to R71). -/

namespace Sys2Proof.Machine

/-! ### Which instruction does nothing -/

/-- A state that every instruction but NOP changes, for one of the two zero flags: the flag is at odds with the
accumulator, the pc is no slot that a field or the empty data memory can name, and the carry is clear. -/
def noOpProbe (z : Bool) : State :=
  { State.reset with acc := if z then 1 else 0, zf := z, pc := 2000, run := .running }

theorem noOpProbe_not_zeroTracks : ∀ z, ¬ (noOpProbe z).zeroTracks := by decide

theorem operandValue_noOpProbe_lt (m : Mode) (a : Field10) (z : Bool) :
    (operandValue m a (noOpProbe z)).toNat < 1024 := by
  cases m with
  | immediate =>
    have := a.isLt
    simp only [operandValue, BitVec.toNat_ofNat]
    omega
  | indirect => exact (by decide : (0 : Word).toNat < 1024)

theorem noOpProbe_jumpTo_ne (m : Mode) (a : Field10) (z : Bool) :
    (noOpProbe z).jumpTo (operandValue m a (noOpProbe z)) ≠ noOpProbe z := by
  intro h
  have hlt := operandValue_noOpProbe_lt m a z
  have hpc : operandValue m a (noOpProbe z) - 1 = 2000 := congrArg State.pc h
  rw [BitVec.sub_eq_iff_eq_add] at hpc
  rw [hpc] at hlt
  exact absurd hlt (by decide)

theorem noOpProbe_store_writes (m : Mode) (a : Field10) :
    exec (.store m a) (noOpProbe true) ≠ .next (noOpProbe true) := by
  intro h
  have hstore := withOperand_next h
  rw [memWrite_of_lt (operandValue_noOpProbe_lt m a true)] at hstore
  have hdmem := congrArg State.dmem (Host.Outcome.next.inj hstore)
  exact absurd hdmem (List.cons_ne_nil _ _)

/-- NOP alone leaves both probes as they are. -/
theorem nop_of_exec_changes_nothing {i : Instr} (h : ∀ s, exec i s = .next s) : i = .nop := by
  have hacc : i.op ∉ Op.accWriters := fun hi =>
    noOpProbe_not_zeroTracks true (exec_zeroTracks (h (noOpProbe true)) hi)
  cases i with
  | nop => rfl
  | hlt => cases congrArg State.run (Host.Outcome.next.inj (h (noOpProbe true)))
  | store m a => exact absurd (h _) (noOpProbe_store_writes m a)
  | jmp m a | jz m a | jc m a | jnc m a =>
    exact (noOpProbe_jumpTo_ne m a true (Host.Outcome.next.inj (withOperand_next (h (noOpProbe true))))).elim
  | jnz m a =>
    exact (noOpProbe_jumpTo_ne m a false (Host.Outcome.next.inj (withOperand_next (h (noOpProbe false))))).elim
  | _ => exact absurd (by simp [Instr.op, Op.accWriters]) hacc

/-- Settles O5. -/
theorem everyWordIsDefinedOrIllegal : Obligations.EveryWordIsDefinedOrIllegal := by
  refine ⟨fun w => ⟨fun hw => ?_, fun hw => decode_of_illegal (by omega), decode_nop_iff w⟩,
    fun _ h => nop_of_exec_changes_nothing h⟩
  obtain ⟨-, o, ho⟩ | hcode := code_defined_or_illegal w
  · exact ⟨_, decode_of_code ho⟩
  · omega

/-! ### What zero-operand words do -/

/-- The zero-operand instructions do not touch data memory. -/
theorem exec_of_arity_zero {i : Instr} (h : i.op.arity = 0) (s : State) (d : Memory 32) :
    ∃ t, exec i s = .next t ∧ t.dmem = s.dmem ∧ exec i { s with dmem := d } = .next { t with dmem := d } := by
  cases i with
  | nop | inc | dec | not | hlt => exact ⟨_, rfl, rfl, rfl⟩
  | _ => cases h

/-- Settles O6: the operation of the code drops the mode and field, and the word with zeros there is its
encoding. -/
theorem zeroOperandBitsAreIgnored : Obligations.ZeroOperandBitsAreIgnored := by
  intro w c hc hw
  have hdefined : c < 20 := (by decide : ∀ c ∈ [0, 6, 7, 11, 19], c < 20) c hc
  obtain ⟨-, o, ho⟩ | hill := code_defined_or_illegal w
  case inr => omega
  have hcode : (codeOfOp o).toNat = c := by rw [ho, unpack_opc_toNat, hw]
  have harity : o.arity = 0 := (zeroOperand_code_iff o).mp (hcode ▸ hc)
  have hencode : (encode (o.instr .immediate 0)).toNat = 2048 * c := by
    rw [encode_toNat_of_arity_zero (by rwa [Op.instr_op]), Op.instr_op, hcode]
  refine ⟨o.instr .immediate 0, ?_, ?_, hencode, exec_of_arity_zero (by rwa [Op.instr_op])⟩
  · rw [decode_of_code ho, Op.instr_of_arity_zero harity]
  · rw [← hencode, BitVec.ofNat_toNat, BitVec.setWidth_eq]
    exact decodeOfEncodeIsTheInstruction _

/-! ### The table of control signals -/

/-- A jump's row writes the pc exactly when its condition holds. -/
theorem jumpSignals_apply (p : PcWrite) (v : Word) (s : State) :
    (jumpSignals p).apply v s = .next (s.jumpIf (p.taken s) v) := by
  cases h : p.taken s <;>
    simp [Signals.apply, Signals.writeRegisters, jumpSignals, State.jumpIf, State.jumpTo, h]

/-- The rule of each instruction is its row of the table. -/
theorem exec_eq_signals (i : Instr) (s : State) :
    exec i s = (signalsOf (some i.op)).execute i.operand s := by
  cases i with
  | jmp m a | jz m a | jnz m a | jc m a | jnc m a =>
    simp only [Signals.execute, Instr.operand, Instr.op, signalsOf, jumpSignals_apply]
    rfl
  | _ => rfl

theorem signalsOf_run_fault_iff (o : Option Op) : (signalsOf o).run = .fault ↔ o = none := by
  cases o with
  | none => decide
  | some o => cases o <;> decide

/-- Settles O30. -/
theorem controlSignalsDetermineExecution : Obligations.ControlSignalsDetermineExecution := by
  refine ⟨exec_eq_signals, fun i => ?operand, fun o => ?flags, fun w => ?illegal⟩
  case operand => cases i <;> rfl
  case flags => cases o <;> decide
  case illegal => rw [signalsOf_run_fault_iff, lookupOp_eq_none_iff, unpack_opc_toNat, decode_illegal_iff]

/-! ### The step around an instruction -/

theorem State.advance_eq (s : State) :
    s.advance = { s with pc := s.pc + 1, steps := if s.run = .running then s.steps + 1 else s.steps } := by
  cases h : s.run <;> simp [State.advance, h]

/-- Settles O34: the fetch has written `ir`, and the end of the cycle is the advance. -/
theorem stepRunsTheDecodedInstruction : Obligations.StepRunsTheDecodedInstruction := by
  intro s i hs hd
  have hstep : step s = endStep (exec i { s with ir := s.fetched }) := step_ready hs hd
  refine ⟨fun f hf => ?_, fun u hu => ?_⟩
  · rw [hstep, hf]
    rfl
  · rw [hstep, hu, ← State.advance_eq]
    rfl

/-- Only HLT ends the run (30_encoding R71). -/
theorem step_signal {s t : State} {i : Instr} (h : step s = .next t) (hd : decode s.fetched = .instr i) :
    signalOf t = if i = .hlt then .stepHalted else .stepContinue := by
  obtain ⟨⟨-, hrun, -⟩, u, he, rfl⟩ := step_next_of_decode h hd
  by_cases hi : i = .hlt
  · subst hi
    cases he
    simp [signalOf]
  · have hu : u.run = .running := (exec_run he fun hop => hi (instr_of_op_hlt hop)).trans hrun
    simp [signalOf, hi, hu]

theorem serve_step_of_next {s t : State} (h : step s = .next t) : serve .step s = (t, signalOf t) := by
  obtain ⟨⟨hf, -, -⟩, -⟩ := step_next h
  simp only [serve, hf, issue, h, responseOf]

/-- Every answer to a step: the signal of a step that completed, or a fault. -/
theorem serve_step_cases (s : State) :
    (∃ t, step s = .next t ∧ (serve .step s).2 = signalOf t) ∨
      ∃ f, (serve .step s).2 = .faulted f ∨ (serve .step s).2 = .ignored f := by
  cases hf : s.fault with
  | some f => exact .inr ⟨f, .inr (by simp only [serve, hf])⟩
  | none =>
    cases h : step s with
    | next t => exact .inl ⟨t, rfl, by rw [serve_step_of_next h]⟩
    | fault f => exact .inr ⟨f, .inl (by simp only [serve, hf, issue, h])⟩
    | refused r => exact absurd h (step_not_refused s r)

/-- A response that is no fault is the signal of a completed step, of a ready block and a decoded word. -/
theorem serve_step_signal {s : State} {r : Response} (hr : (serve .step s).2 = r)
    (hfault : ∀ f, r ≠ .faulted f ∧ r ≠ .ignored f) :
    ∃ i t, s.ready ∧ decode s.fetched = .instr i ∧ step s = .next t ∧
      r = if i = .hlt then .stepHalted else .stepContinue := by
  obtain ⟨t, h, hsignal⟩ | ⟨f, hf | hf⟩ := serve_step_cases s
  · obtain ⟨hs, i, -, hd, -⟩ := step_next h
    exact ⟨i, t, hs, hd, h, by rw [← hr, hsignal, step_signal h hd]⟩
  · exact absurd (hr.symm.trans hf) (hfault f).1
  · exact absurd (hr.symm.trans hf) (hfault f).2

/-- Settles O37. -/
theorem haltedExactlyAfterHlt : Obligations.HaltedExactlyAfterHlt := by
  refine fun s => ⟨⟨fun h => ?halted, fun ⟨hs, hd⟩ => ?hlt⟩,
    ⟨fun h => ?continued, fun ⟨i, t, _, hd, hi, h⟩ => ?other⟩, fun hhalted hcontinue => ?fault⟩
  case halted =>
    obtain ⟨i, t, hs, hd, -, hi⟩ := serve_step_signal h (by simp)
    split at hi
    · subst i
      exact ⟨hs, hd⟩
    · cases hi
  case hlt =>
    have h : step s = .next (s.writeIr s.fetched).halt.advance := step_ready hs hd
    rw [serve_step_of_next h, step_signal h hd, if_pos rfl]
  case continued =>
    obtain ⟨i, t, hs, hd, ht, hi⟩ := serve_step_signal h (by simp)
    split at hi
    · cases hi
    · exact ⟨i, t, hs, hd, ‹_›, ht⟩
  case other => rw [serve_step_of_next h, step_signal h hd, if_neg hi]
  case fault =>
    obtain ⟨t, -, ht⟩ | hf := serve_step_cases s
    · cases hrun : t.run
      · exact absurd (ht.trans (by simp only [signalOf, hrun])) hhalted
      · exact absurd (ht.trans (by simp only [signalOf, hrun])) hcontinue
    · exact hf

end Sys2Proof.Machine
end

section
/-! PROOFS. The assembler: the checks on one line, the lines of a source, and the words and errors that come of
them (spec/30_encoding.md R77, R81 to R88). -/

namespace Sys2Proof.Machine

/-! ### The operand token -/

theorem parseOperand_of_malformed {t : Text} (h : literalValue (splitMarker t).2 = none) :
    parseOperand t = .error .malformedNumericLiteral := by
  simp only [parseOperand, h]

theorem parseOperand_of_value {t : Text} {v : Nat} (h : literalValue (splitMarker t).2 = some v) :
    parseOperand t =
      if v ≤ 1023 then .ok ((splitMarker t).1, BitVec.ofNat 10 v) else .error .valueOutOfRange := by
  simp only [parseOperand, h, fitsOperandField, decide_eq_true_eq]

theorem assembleOperands_of_parse_error {o : Op} {t : Text} {rest : List Text} {e : ErrorKind}
    (h : parseOperand t = .error e) : assembleOperands o (t :: rest) = .error e := by
  simp only [assembleOperands, h]

theorem assembleOperands_of_extra {o : Op} {t : Text} {rest : List Text} {p : Mode × Field10}
    (h : parseOperand t = .ok p) (hlen : o.arity < (t :: rest).length) :
    assembleOperands o (t :: rest) = .error .unexpectedExtraToken := by
  have hcount : ¬ (o.arity = 1 ∧ rest = []) := fun ⟨harity, hrest⟩ => by
    rw [harity, hrest] at hlen
    exact absurd hlen (lt_irrefl 1)
  simp only [assembleOperands, h, if_neg hcount]

theorem assembleOperands_of_missing {o : Op} {operands : List Text} (hlen : operands.length < o.arity) :
    assembleOperands o operands = .error .missingRequiredToken := by
  have hle := Op.arity_le_one o
  obtain rfl : operands = [] := List.eq_nil_of_length_eq_zero (by omega)
  exact if_neg (Nat.ne_of_gt hlen)

/-! ### One line -/

theorem assembleLine_of_blank {line : Text} (h : codeTokens line = []) : assembleLine line = .ok none := by
  simp only [assembleLine, h]

theorem assembleLine_of_unknown {line t : Text} {operands : List Text} (h : codeTokens line = t :: operands)
    (ht : lookupMnemonic t = none) : assembleLine line = .error .unrecognizedMnemonic := by
  simp only [assembleLine, h, ht]

theorem assembleLine_of_known {line t : Text} {operands : List Text} {o : Op}
    (h : codeTokens line = t :: operands) (ht : lookupMnemonic t = some o) :
    assembleLine line = (assembleOperands o operands).map some := by
  simp only [assembleLine, h, ht]
  cases assembleOperands o operands <;> rfl

theorem assembleLine_of_operand_error {line t : Text} {operands : List Text} {o : Op} {e : ErrorKind}
    (h : codeTokens line = t :: operands) (ht : lookupMnemonic t = some o)
    (he : assembleOperands o operands = .error e) : assembleLine line = .error e := by
  rw [assembleLine_of_known h ht, he]
  rfl

/-- A line that is assembled gives an instruction exactly when it holds code. -/
theorem holdsCode_of_assembleLine {line : Text} {r : Option Instr} (h : assembleLine line = .ok r) :
    holdsCode line = r.isSome := by
  cases hcode : codeTokens line with
  | nil =>
    rw [assembleLine_of_blank hcode] at h
    cases h
    simp [holdsCode, hcode]
  | cons t operands =>
    cases ht : lookupMnemonic t with
    | none =>
      rw [assembleLine_of_unknown hcode ht] at h
      cases h
    | some o =>
      rw [assembleLine_of_known hcode ht] at h
      cases hops : assembleOperands o operands with
      | error e =>
        rw [hops] at h
        cases h
      | ok i =>
        rw [hops] at h
        cases h
        simp [holdsCode, hcode]

/-- Settles O12: the mnemonic is looked up first, the operand token is parsed next, and the count comes last. -/
theorem lineCheckOrder : Obligations.LineCheckOrder := by
  refine ⟨fun line t operands h => ⟨assembleLine_of_unknown h, fun o ho => ?known⟩, rfl, rfl, rfl, rfl, rfl⟩
  refine ⟨fun x rest hx => ?operand, fun hlen => ?missing⟩
  case missing => exact assembleLine_of_operand_error h ho (assembleOperands_of_missing hlen)
  case operand =>
    subst hx
    refine ⟨fun hbad => ?_, fun v hv => ⟨fun hgt => ?_, fun hle hlen => ?_⟩⟩
    · exact assembleLine_of_operand_error h ho
        (assembleOperands_of_parse_error (parseOperand_of_malformed hbad))
    · have hrange := (parseOperand_of_value hv).trans (if_neg (not_le.mpr hgt))
      exact assembleLine_of_operand_error h ho (assembleOperands_of_parse_error hrange)
    · have hfield := (parseOperand_of_value hv).trans (if_pos hle)
      exact assembleLine_of_operand_error h ho (assembleOperands_of_extra hfield hlen)

/-! ### The lines of a source -/

theorem assembleLines_cons_ok {k : Nat} {line : Text} {rest : List Text} {is : List Instr}
    (h : assembleLines k (line :: rest) = .ok is) :
    ∃ r js, assembleLine line = .ok r ∧ assembleLines (k + 1) rest = .ok js ∧ is = r.toList ++ js := by
  unfold assembleLines at h
  split at h
  · cases h
  · exact ⟨none, is, ‹_›, h, rfl⟩
  · split at h
    · cases h
    · cases h
      exact ⟨_, _, ‹_›, ‹_›, rfl⟩

theorem assembleLines_cons_error {k : Nat} {line : Text} {rest : List Text} {e : TranslationError}
    (h : assembleLines k (line :: rest) = .error e) :
    assembleLine line = .error e.kind ∧ e.line = k ∨
      ∃ r, assembleLine line = .ok r ∧ assembleLines (k + 1) rest = .error e := by
  unfold assembleLines at h
  split at h
  · cases h
    exact .inl ⟨‹_›, rfl⟩
  · exact .inr ⟨none, ‹_›, h⟩
  · split at h
    · cases h
      exact .inr ⟨_, ‹_›, ‹_›⟩
    · cases h

/-- The instructions are those of the lines with code, one each and in their order (30_encoding R88). -/
theorem assembleLines_ok {k : Nat} {lines : List Text} {is : List Instr} (h : assembleLines k lines = .ok is) :
    List.Forall₂ (fun line i => assembleLine line = .ok (some i)) (lines.filter holdsCode) is := by
  induction lines generalizing k is with
  | nil =>
    cases h
    exact .nil
  | cons line rest ih =>
    obtain ⟨r, js, hline, hrest, rfl⟩ := assembleLines_cons_ok h
    have hcode := holdsCode_of_assembleLine hline
    cases r with
    | none =>
      rw [List.filter_cons_of_neg (by simp [hcode])]
      exact ih hrest
    | some i =>
      rw [List.filter_cons_of_pos hcode]
      exact .cons hline (ih hrest)

/-- The first line that fails is the one reported, by its index among all lines (30_encoding R84). -/
theorem assembleLines_error {k : Nat} {lines : List Text} {e : TranslationError}
    (h : assembleLines k lines = .error e) :
    ∃ j line, e.line = k + j ∧ lines[j]? = some line ∧ assembleLine line = .error e.kind ∧
      ∀ (j' : Nat) (l : Text), j' < j → lines[j']? = some l → ∃ r, assembleLine l = .ok r := by
  induction lines generalizing k with
  | nil => cases h
  | cons line rest ih =>
    obtain ⟨hline, hk⟩ | ⟨r, hline, hrest⟩ := assembleLines_cons_error h
    · exact ⟨0, line, hk, rfl, hline, fun j' l hj => absurd hj (Nat.not_lt_zero j')⟩
    · obtain ⟨j, l, hk, hj, hl, hbefore⟩ := ih hrest
      refine ⟨j + 1, l, by omega, hj, hl, fun j' l' hj' hl' => ?_⟩
      cases j' with
      | zero =>
        cases hl'
        exact ⟨r, hline⟩
      | succ j' => exact hbefore j' l' (by omega) hl'

/-! ### A source text -/

theorem translateSource_of_oversize {source : Text} {n : Nat} (h : n < (linesOf source).countP holdsCode) :
    translateSource source n =
      .error { kind := .sizeLimitExceeded, line := (linesOf source).countP holdsCode } := if_pos h

theorem translateSource_of_fits {source : Text} {n : Nat} (h : (linesOf source).countP holdsCode ≤ n) :
    translateSource source n = (assembleLines 0 (linesOf source)).map (List.map encode) := by
  simp only [translateSource, if_neg (not_lt.mpr h)]
  cases assembleLines 0 (linesOf source) <;> rfl

/-- A source that translates fits the limit and gives the encodings of its assembled lines. -/
theorem translateSource_ok {source : Text} {n : Nat} {ws : List IWord} (h : translateSource source n = .ok ws) :
    (linesOf source).countP holdsCode ≤ n ∧
      ∃ is, ws = is.map encode ∧
        List.Forall₂ (fun line i => assembleLine line = .ok (some i)) ((linesOf source).filter holdsCode) is := by
  by_cases hfits : (linesOf source).countP holdsCode ≤ n
  · rw [translateSource_of_fits hfits] at h
    cases his : assembleLines 0 (linesOf source) with
    | error e =>
      rw [his] at h
      cases h
    | ok is =>
      rw [his] at h
      cases h
      exact ⟨hfits, is, rfl, assembleLines_ok his⟩
  · rw [translateSource_of_oversize (not_le.mp hfits)] at h
    cases h

theorem translateSource_error {source : Text} {n : Nat} {e : TranslationError}
    (hfits : (linesOf source).countP holdsCode ≤ n) (h : translateSource source n = .error e) :
    assembleLines 0 (linesOf source) = .error e := by
  rw [translateSource_of_fits hfits] at h
  cases his : assembleLines 0 (linesOf source) with
  | error e' =>
    rw [his] at h
    cases h
    rfl
  | ok is =>
    rw [his] at h
    cases h

/-- Settles O13. -/
theorem translationErrorLines : Obligations.TranslationErrorLines := by
  refine fun source n => ⟨translateSource_of_oversize, fun hfits e h => ?_⟩
  obtain ⟨j, line, hline, hj, hfails, hbefore⟩ := assembleLines_error (translateSource_error hfits h)
  obtain rfl : e.line = j := by omega
  exact ⟨⟨line, hj, hfails⟩, hbefore⟩

theorem translateSource_length {source : Text} {n : Nat} {ws : List IWord}
    (h : translateSource source n = .ok ws) :
    ws.length = ((linesOf source).filter holdsCode).length ∧ ws.length ≤ n := by
  obtain ⟨hfits, is, rfl, hall⟩ := translateSource_ok h
  rw [List.length_map, ← hall.length_eq, ← List.countP_eq_length_filter]
  exact ⟨rfl, hfits⟩

/-- Settles O14: the lines with code and the instructions correspond one to one, and the image is loaded from
slot 0. -/
theorem blankLinesTakeNoSlot : Obligations.BlankLinesTakeNoSlot := by
  refine ⟨fun _ => assembleLine_of_blank, fun source n ws h => ⟨(translateSource_length h).1, ?_⟩⟩
  obtain ⟨-, is, rfl, hall⟩ := translateSource_ok h
  intro j line hline
  obtain ⟨hj, rfl⟩ := List.getElem?_eq_some_iff.mp hline
  have hj' : j < is.length := hall.length_eq ▸ hj
  refine ⟨is[j], hall.get hj hj', ?_⟩
  simp [Memory.read_ofImage, hj']

/-! ### Loading a translated program -/

/-- An encoder writes a defined code, and zeros into the ignored fields (30_encoding R62, R86). -/
theorem isCanonical_encode (i : Instr) : IWord.isCanonical (encode i) = true := by
  have hcode := codeOfOp_toNat_lt i.op
  have hm := i.fieldBits.1.isLt
  have ha := i.fieldBits.2.isLt
  have hword := encode_toNat i
  have hquot : (encode i).toNat / 2048 = (codeOfOp i.op).toNat := by omega
  have hdefined : (encode i).toNat < 0xA000 := by omega
  have hzero : (codeOfOp i.op).toNat ∈ [0, 6, 7, 11, 19] → (encode i).toNat % 2048 = 0 := fun hmem => by
    rw [encode_toNat_of_arity_zero ((zeroOperand_code_iff i.op).mp hmem)]
    exact Nat.mul_mod_right 2048 _
  simp only [IWord.isCanonical, IWord.isDefined, hquot, Bool.and_eq_true, decide_eq_true_eq, Bool.or_eq_true,
    Bool.not_eq_true', List.contains_eq_mem, decide_eq_false_iff_not]
  exact ⟨hdefined, not_or_of_imp hzero⟩

theorem serve_loadInstructions {s : State} {ws : List IWord} (hf : s.fault = none) (hr : s.run = .stopped)
    (hlen : ws.length ≤ s.cfg.imemWords) :
    serve (.loadInstructions ws) s = ({ s with imem := Memory.ofImage ws }, .done) := by
  simp only [serve, hf, issue, hostLoadInstructions, accept, hr, if_pos hlen, if_true, responseOf]

/-- Settles O10. -/
theorem translatedWordsAreCanonical : Obligations.TranslatedWordsAreCanonical := by
  refine ⟨fun source n ws h => ⟨(translateSource_length h).2, ?canonical⟩, fun source s ws hf hr h => ?load⟩
  case canonical =>
    obtain ⟨-, is, rfl, -⟩ := translateSource_ok h
    exact List.forall_mem_map.mpr fun i _ => isCanonical_encode i
  case load =>
    have hlen := (translateSource_length h).2
    exact ⟨_, serve_loadInstructions hf hr hlen, rfl, hlen, Memory.read_ofImage ws⟩

end Sys2Proof.Machine
end

section
/-! PROOFS. The printed forms of the disassembler, read back by the assembler (spec/30_encoding.md R74 to R81). -/

namespace Sys2Proof.Machine

/-! ### Cutting a text -/

section Split

variable {cut : Char → Bool}

theorem splitWhere_ne_nil (cut : Char → Bool) (t : Text) : splitWhere cut t ≠ [] := by
  cases t with
  | nil => exact List.cons_ne_nil _ _
  | cons c cs =>
    unfold splitWhere
    split
    · exact List.cons_ne_nil _ _
    · split <;> exact List.cons_ne_nil _ _

theorem splitWhere_cons_cut {c : Char} (hc : cut c = true) (cs : Text) :
    splitWhere cut (c :: cs) = [] :: splitWhere cut cs := by
  obtain ⟨w, ws, h⟩ := List.exists_cons_of_ne_nil (splitWhere_ne_nil cut cs)
  simp only [splitWhere, h, if_pos hc]

/-- Characters that are not cut stay with the piece they stand before. -/
theorem splitWhere_append {t u : Text} {w : Text} {ws : List Text} (ht : ∀ c ∈ t, cut c = false)
    (hu : splitWhere cut u = w :: ws) : splitWhere cut (t ++ u) = (t ++ w) :: ws := by
  induction t with
  | nil => exact hu
  | cons c t ih =>
    obtain ⟨hc, ht⟩ := List.forall_mem_cons.mp ht
    simp only [List.cons_append, splitWhere, ih ht, hc, Bool.false_eq_true, if_false]

theorem splitWhere_of_no_cut {t : Text} (ht : ∀ c ∈ t, cut c = false) : splitWhere cut t = [t] := by
  simpa using splitWhere_append ht (rfl : splitWhere cut [] = [[]])

theorem splitWhere_append_cut {t u : Text} {d : Char} (ht : ∀ c ∈ t, cut c = false) (hd : cut d = true) :
    splitWhere cut (t ++ d :: u) = t :: splitWhere cut u := by
  simpa using splitWhere_append ht (splitWhere_cons_cut hd u)

end Split

/-! ### Plain tokens -/

/-- The characters that end a token or a line or begin a comment (30_encoding R76; log entry 12). -/
abbrev breakChars : List Char := [' ', '\t', '\r', '\n', '#']

/-- A text that is one token of code wherever it stands between blanks: not empty, and without any of
`breakChars`. -/
abbrev IsPlainToken (t : Text) : Prop := t ≠ [] ∧ ∀ c ∈ t, c ∉ breakChars

theorem linesOf_of_no_newline {t : Text} (h : '\n' ∉ t) : linesOf t = [t] :=
  splitWhere_of_no_cut fun _ hc => beq_false_of_ne fun e => h (e ▸ hc)

theorem IsPlainToken.no_newline {t : Text} (h : IsPlainToken t) : '\n' ∉ t := fun hc =>
  h.2 _ hc (by decide)

theorem IsPlainToken.no_blank {t : Text} (h : IsPlainToken t) :
    ∀ c ∈ t, (c == ' ' || c == '\t' || c == '\r') = false := fun c hc => by
  obtain ⟨hspace, htab, hreturn, -⟩ : c ≠ ' ' ∧ c ≠ '\t' ∧ c ≠ '\r' ∧ c ≠ '\n' ∧ c ≠ '#' := by
    simpa using h.2 c hc
  simp [hspace, htab, hreturn]

theorem IsPlainToken.not_opensComment {t : Text} (h : IsPlainToken t) : opensComment t = false :=
  beq_false_of_ne fun hhead => h.2 _ (List.mem_of_head? hhead) (by decide)

theorem codeTokens_single {t : Text} (ht : IsPlainToken t) : codeTokens t = [t] := by
  have htokens : tokensOf t = [t] := by
    rw [tokensOf, splitWhere_of_no_cut ht.no_blank]
    simp [ht.1]
  simp [codeTokens, htokens, ht.not_opensComment]

theorem codeTokens_pair {t u : Text} (ht : IsPlainToken t) (hu : IsPlainToken u) :
    codeTokens (t ++ ' ' :: u) = [t, u] := by
  have htokens : tokensOf (t ++ ' ' :: u) = [t, u] := by
    rw [tokensOf, splitWhere_append_cut ht.no_blank rfl, splitWhere_of_no_cut hu.no_blank]
    simp [ht.1, hu.1]
  simp [codeTokens, htokens, ht.not_opensComment, hu.not_opensComment]

/-! ### Decimal literals -/

theorem digitValue_of_isDigit {c : Char} (h : c.isDigit = true) :
    digitValue c = some (c.toNat - 48) ∧ c.toNat - 48 < 10 := by
  have hc : '0' ≤ c ∧ c ≤ '9' := by
    rwa [Char.isDigit, Bool.and_eq_true, decide_eq_true_eq, decide_eq_true_eq] at h
  have hnine : c.toNat ≤ 57 := hc.2
  exact ⟨if_pos hc, by omega⟩

theorem digitsValue_of_isDigit {t : Text} (h : ∀ c ∈ t, c.isDigit = true) (acc : Nat) :
    digitsValue 10 acc t = some (Nat.ofDigitChars 10 t acc) := by
  induction t generalizing acc with
  | nil => rfl
  | cons c t ih =>
    obtain ⟨hc, ht⟩ := List.forall_mem_cons.mp h
    obtain ⟨hvalue, hlt⟩ := digitValue_of_isDigit hc
    simp only [digitsValue, hvalue, if_pos hlt, ih ht, Nat.ofDigitChars_cons]
    rw [Nat.mul_comm]
    rfl

/-- A literal that does not begin with 0 is decimal (30_encoding R80). -/
theorem literalValue_of_ne_zero {d : Char} (h : d ≠ '0') (ds : Text) :
    literalValue (d :: ds) = digitsValue 10 0 (d :: ds) := by
  unfold literalValue
  split <;> simp_all

/-- A decimal numeral of a positive number has no leading zero (log entry 21). -/
theorem toDigits_head_ne_zero {v : Nat} (h : 0 < v) : ∃ d ds, Nat.toDigits 10 v = d :: ds ∧ d ≠ '0' := by
  induction v using Nat.strong_induction_on with
  | _ v ih =>
    by_cases hv : v < 10
    · exact ⟨_, [], Nat.toDigits_of_lt_base hv, fun e => by rw [Nat.digitChar_eq_zero] at e; omega⟩
    · obtain ⟨d, ds, hd, hne⟩ := ih (v / 10) (by omega) (by omega)
      exact ⟨d, _, by rw [Nat.toDigits_of_base_le (by omega) (by omega), hd, List.cons_append], hne⟩

theorem isDigit_of_mem_toDigits {v : Nat} : ∀ c ∈ Nat.toDigits 10 v, c.isDigit = true := fun _ hc =>
  Nat.isDigit_of_mem_toDigits (by decide) (by decide) hc

theorem literalValue_toDigits (v : Nat) : literalValue (Nat.toDigits 10 v) = some v := by
  obtain rfl | hv := Nat.eq_zero_or_pos v
  · rfl
  · obtain ⟨d, ds, hd, hne⟩ := toDigits_head_ne_zero hv
    calc literalValue (Nat.toDigits 10 v)
        = digitsValue 10 0 (Nat.toDigits 10 v) := by rw [hd, literalValue_of_ne_zero hne]
      _ = some (Nat.ofDigitChars 10 (Nat.toDigits 10 v) 0) := digitsValue_of_isDigit isDigit_of_mem_toDigits 0
      _ = some v := by rw [Nat.ofDigitChars_ten_toDigits]

/-! ### Printed operands and mnemonics -/

/-- The operand token that the disassembler prints (30_encoding R74). -/
abbrev operandText (m : Mode) (v : Nat) : Text := modeMarker m ++ Nat.toDigits 10 v

theorem splitMarker_of_no_marker {t : Text} (h : '*' ∉ t) : splitMarker t = (.immediate, t) := by
  unfold splitMarker
  split
  · exact absurd List.mem_cons_self h
  · rfl

theorem splitMarker_operandText (m : Mode) (v : Nat) :
    splitMarker (operandText m v) = (m, Nat.toDigits 10 v) := by
  cases m with
  | immediate => exact splitMarker_of_no_marker fun h => absurd (isDigit_of_mem_toDigits _ h) (by decide)
  | indirect => rfl

theorem parseOperand_operandText (m : Mode) (v : Nat) :
    parseOperand (operandText m v) = if v ≤ 1023 then .ok (m, BitVec.ofNat 10 v) else .error .valueOutOfRange := by
  have hsplit := splitMarker_operandText m v
  rw [parseOperand_of_value (v := v) (by rw [hsplit]; exact literalValue_toDigits v), hsplit]

theorem not_isDigit_of_mem_breakChars : ∀ c ∈ breakChars, c.isDigit = false := by simp

theorem operandText_isPlainToken (m : Mode) (v : Nat) : IsPlainToken (operandText m v) := by
  refine ⟨fun h => Nat.toDigits_ne_nil (List.append_eq_nil_iff.mp h).2, fun c hc => ?_⟩
  obtain hmarker | hdigit := List.mem_append.mp hc
  · cases m with
    | immediate => cases hmarker
    | indirect =>
      obtain rfl := List.mem_singleton.mp hmarker
      decide
  · intro hbreak
    have hno : c.isDigit = false := not_isDigit_of_mem_breakChars c hbreak
    rw [isDigit_of_mem_toDigits c hdigit] at hno
    cases hno

theorem mnemonic_isPlainToken (o : Op) : IsPlainToken (mnemonic o) := by cases o <;> simp [IsPlainToken, mnemonic]

@[simp] theorem lookupMnemonic_mnemonic (o : Op) : lookupMnemonic (mnemonic o) = some o := by cases o <;> rfl

/-! ### Printed lines -/

theorem assembleLine_mnemonic {o : Op} (h : o.arity = 0) :
    assembleLine (mnemonic o) = .ok (some (o.instr .immediate 0)) := by
  rw [assembleLine_of_known (codeTokens_single (mnemonic_isPlainToken o)) (lookupMnemonic_mnemonic o)]
  simp only [assembleOperands, if_pos h]
  rfl

theorem assembleLine_mnemonic_operand {o : Op} (h : o.arity = 1) (m : Mode) (v : Nat) :
    assembleLine (mnemonic o ++ ' ' :: operandText m v) =
      if v ≤ 1023 then .ok (some (o.instr m (BitVec.ofNat 10 v))) else .error .valueOutOfRange := by
  rw [assembleLine_of_known (codeTokens_pair (mnemonic_isPlainToken o) (operandText_isPlainToken m v))
    (lookupMnemonic_mnemonic o)]
  by_cases hv : v ≤ 1023
  · simp only [assembleOperands, parseOperand_operandText, h, if_pos hv, and_self, if_true]
    rfl
  · simp only [assembleOperands, parseOperand_operandText, if_neg hv]
    rfl

theorem no_newline_pair {t u : Text} (ht : IsPlainToken t) (hu : IsPlainToken u) : '\n' ∉ t ++ ' ' :: u := by
  simp [ht.no_newline, hu.no_newline]

/-! ### One-line sources -/

section OneLine

variable {line : Text} {n : Nat}

theorem translateSource_of_line (hline : '\n' ∉ line) (hn : 1 ≤ n) :
    translateSource line n = (assembleLines 0 [line]).map (List.map encode) := by
  have hcount : (linesOf line).countP holdsCode ≤ n := by
    rw [linesOf_of_no_newline hline]
    exact List.countP_le_length.trans hn
  rw [translateSource_of_fits hcount, linesOf_of_no_newline hline]

theorem translateSource_line_ok (hline : '\n' ∉ line) (hn : 1 ≤ n) {i : Instr}
    (h : assembleLine line = .ok (some i)) : translateSource line n = .ok [encode i] := by
  rw [translateSource_of_line hline hn]
  simp only [assembleLines, h]
  rfl

theorem translateSource_line_error (hline : '\n' ∉ line) (hn : 1 ≤ n) {e : ErrorKind}
    (h : assembleLine line = .error e) : translateSource line n = .error { kind := e, line := 0 } := by
  rw [translateSource_of_line hline hn]
  simp only [assembleLines, h]
  rfl

end OneLine

/-- Settles O11: a token with a value is checked against 1023, and decimal numerals have their value. -/
theorem operandLiteralRange : Obligations.OperandLiteralRange := by
  refine ⟨fun _ _ => parseOperand_of_value, fun o m v ho => ?_⟩
  have hline := no_newline_pair (mnemonic_isPlainToken o) (operandText_isPlainToken m v)
  have hassembled := assembleLine_mnemonic_operand ho m v
  split at hassembled
  · rw [if_pos ‹_›]
    exact translateSource_line_ok hline le_rfl hassembled
  · rw [if_neg ‹_›]
    exact translateSource_line_error hline le_rfl hassembled

/-! ### Disassembly -/

theorem instr_of_operand_some {i : Instr} {m : Mode} {a : Field10} (h : i.operand = some (m, a)) :
    i.op.arity = 1 ∧ i.op.instr m a = i := by
  cases i with
  | nop | inc | dec | not | hlt => cases h
  | _ =>
    cases h
    exact ⟨rfl, rfl⟩

theorem instr_of_operand_none {i : Instr} (h : i.operand = none) :
    i.op.arity = 0 ∧ i.op.instr .immediate 0 = i := by
  cases i with
  | nop | inc | dec | not | hlt => exact ⟨rfl, rfl⟩
  | _ => cases h

/-- The printed form of an instruction is one line that assembles to it. -/
theorem assembleLine_disassembleInstr (i : Instr) :
    '\n' ∉ disassembleInstr i ∧ assembleLine (disassembleInstr i) = .ok (some i) := by
  cases hoperand : i.operand with
  | none =>
    obtain ⟨harity, hi⟩ := instr_of_operand_none hoperand
    have htext : disassembleInstr i = mnemonic i.op := by simp [disassembleInstr, hoperand]
    rw [htext, assembleLine_mnemonic harity, hi]
    exact ⟨(mnemonic_isPlainToken i.op).no_newline, rfl⟩
  | some p =>
    obtain ⟨m, a⟩ := p
    obtain ⟨harity, hi⟩ := instr_of_operand_some hoperand
    have htext : disassembleInstr i = mnemonic i.op ++ ' ' :: operandText m a.toNat := by
      simp [disassembleInstr, hoperand]
    have hfield : a.toNat ≤ 1023 := Nat.le_of_lt_succ a.isLt
    rw [htext, assembleLine_mnemonic_operand harity, if_pos hfield, BitVec.ofNat_toNat, BitVec.setWidth_eq, hi]
    exact ⟨no_newline_pair (mnemonic_isPlainToken _) (operandText_isPlainToken _ _), rfl⟩

/-- Settles O9: the printed form is a source of one line, which assembles to the instruction. -/
theorem disassemblyAssemblesBack : Obligations.DisassemblyAssemblesBack := fun i _ hn =>
  have ⟨hline, h⟩ := assembleLine_disassembleInstr i
  translateSource_line_ok hline hn h

end Sys2Proof.Machine
end

section
/-! PROOFS. LOAD, STORE and LOADIND: what each answers, by the range of its operand and of the address that the
operand gives (spec/40_load_store.md R89 to R91). -/

namespace Sys2Proof.Machine

section LoadStore

variable {m : Mode} {a : Field10} {s : State}

/-! ### LOAD -/

theorem exec_load_inRange (h : operandInRange m a s) :
    exec (.load m a) s = .next (s.writeAcc (operandValue m a s)) := withOperand_inRange h _

theorem exec_load_outOfRange (h : ¬ operandInRange m a s) :
    exec (.load m a) s = .fault (.dataAddress (BitVec.ofNat 32 a.toNat) s.pc) := withOperand_outOfRange h _

/-- Both read data memory once, at the zero-extended field: LOAD in the multiplexer, LOADIND in its handler. -/
theorem exec_load_indirect_eq_loadind_immediate (a : Field10) (s : State) :
    exec (.load .indirect a) s = exec (.loadind .immediate a) s := rfl

/-! ### LOADIND -/

theorem exec_loadind_of_lt (h : operandInRange m a s) (hlt : (operandValue m a s).toNat < s.cfg.dmemWords) :
    exec (.loadind m a) s = .next (s.writeAcc (Memory.read s.dmem (operandValue m a s).toNat)) := by
  simp only [exec, execLoadind, withOperand_inRange h, memRead_of_lt hlt]

theorem exec_loadind_of_le (h : operandInRange m a s) (hle : s.cfg.dmemWords ≤ (operandValue m a s).toNat) :
    exec (.loadind m a) s = .fault (.dataAddress (operandValue m a s) s.pc) := by
  simp only [exec, execLoadind, withOperand_inRange h, memRead_of_le hle, raise]

theorem exec_loadind_outOfRange (h : ¬ operandInRange m a s) :
    exec (.loadind m a) s = .fault (.dataAddress (BitVec.ofNat 32 a.toNat) s.pc) := withOperand_outOfRange h _

/-! ### STORE -/

theorem exec_store_of_lt (h : operandInRange m a s) (hlt : (operandValue m a s).toNat < s.cfg.dmemWords) :
    exec (.store m a) s = .next (s.withDataWord (operandValue m a s) s.acc) := by
  simp only [exec, execStore, withOperand_inRange h, memWrite_of_lt hlt]

theorem exec_store_of_le (h : operandInRange m a s) (hle : s.cfg.dmemWords ≤ (operandValue m a s).toNat) :
    exec (.store m a) s = .fault (.dataAddress (operandValue m a s) s.pc) := by
  simp only [exec, execStore, withOperand_inRange h, memWrite_of_le hle, raise]

theorem exec_store_outOfRange (h : ¬ operandInRange m a s) :
    exec (.store m a) s = .fault (.dataAddress (BitVec.ofNat 32 a.toNat) s.pc) := withOperand_outOfRange h _

/-- STORE gives a next state only where the operand and the address it gives are both in range. -/
theorem exec_store_next {t : State} (h : exec (.store m a) s = .next t) :
    operandInRange m a s ∧ (operandValue m a s).toNat < s.cfg.dmemWords ∧
      t = s.withDataWord (operandValue m a s) s.acc := by
  by_cases hin : operandInRange m a s
  · obtain hlt | hle := lt_or_ge (operandValue m a s).toNat s.cfg.dmemWords
    · rw [exec_store_of_lt hin hlt] at h
      cases h
      exact ⟨hin, hlt, rfl⟩
    · rw [exec_store_of_le hin hle] at h
      cases h
  · rw [exec_store_outOfRange hin] at h
    cases h

end LoadStore

/-! ### The statements -/

/-- Settles O17: the new data memory is one `Memory.write`, whose reads are known in canonical form. -/
theorem storeWritesTheAddressedWord : Obligations.StoreWritesTheAddressedWord := by
  refine fun m a s => ⟨fun hin hlt => ?_, exec_store_outOfRange, exec_store_of_le⟩
  exact ⟨_, exec_store_of_lt hin hlt, rfl, fun hwf =>
    ⟨Memory.read_write_same hwf _ _, fun _ hb => Memory.read_write_other hwf hb _⟩⟩

/-- Settles O18. -/
theorem loadindReadsThroughTheOperand : Obligations.LoadindReadsThroughTheOperand := fun _ _ _ =>
  ⟨exec_loadind_of_lt, exec_loadind_outOfRange, exec_loadind_of_le⟩

/-- Settles O32: where STORE gives a next state, the address its operand resolves to is the one written. -/
theorem storeFrame : Obligations.StoreFrame := by
  intro m a s t h
  obtain ⟨hin, -, rfl⟩ := exec_store_next h
  refine ⟨rfl, rfl, rfl, rfl, rfl, rfl, rfl, rfl, rfl, rfl, fun hwf addr haddr b hb => ?_⟩
  obtain rfl : operandValue m a s = addr := Except.ok.inj ((resolveOperand_inRange hin).symm.trans haddr)
  exact Memory.read_write_other hwf hb _

/-- Settles O16. -/
theorem loadWritesTheOperand : Obligations.LoadWritesTheOperand := fun _ a s =>
  ⟨exec_load_inRange, exec_load_outOfRange, exec_load_indirect_eq_loadind_immediate a s⟩

end Sys2Proof.Machine
end

section
/-! PROOFS. ADD, SUB, INC and DEC: the flag computations as facts about naturals, and what each answers
(spec/41_arithmetic.md R92 to R96). -/

namespace Sys2Proof.Machine

/-! ### The flag computations -/

section Flags

variable (old v : Word)

theorem zeroFlag_add : zeroFlag (old + v) = decide ((old.toNat + v.toNat) % 2 ^ 32 = 0) := by
  rw [zeroFlag, decide_eq_decide, ← BitVec.toNat_inj, BitVec.toNat_add]
  rfl

theorem zeroFlag_sub : zeroFlag (old - v) = decide (old = v) := decide_eq_decide.mpr sub_eq_zero

/-- A sum wraps exactly when it falls below its first operand, since the second is below 2^32 (41_arithmetic R92). -/
theorem addCarry_eq : addCarry old v = decide (2 ^ 32 ≤ old.toNat + v.toNat) := by
  have hwrap : (old + v).toNat < old.toNat ↔ 2 ^ 32 ≤ old.toNat + v.toNat := by
    rw [BitVec.toNat_add]
    omega
  exact decide_eq_decide.mpr hwrap

/-- A difference wraps exactly when it rises above its first operand (41_arithmetic R92). -/
theorem subBorrow_eq : subBorrow old v = decide (old.toNat < v.toNat) := by
  have hwrap : (old - v).toNat > old.toNat ↔ old.toNat < v.toNat := by
    rw [BitVec.toNat_sub]
    omega
  exact decide_eq_decide.mpr hwrap

/-- The ALU's difference is the integer difference, wrapped (41_arithmetic R92). -/
theorem sub_eq_ofInt : old - v = BitVec.ofInt 32 ((old.toNat : Int) - (v.toNat : Int)) := by
  apply BitVec.eq_of_toNat_eq
  rw [BitVec.toNat_sub, BitVec.toNat_ofInt]
  omega

/-- INC carries where ADD 1 does (41_arithmetic R95). -/
theorem incCarry_eq_addCarry : incCarry old = addCarry old 1 := by
  rw [incCarry, addCarry_eq, decide_eq_decide, ← BitVec.toNat_inj]
  change old.toNat = 2 ^ 32 - 1 ↔ 2 ^ 32 ≤ old.toNat + 1
  omega

/-- DEC borrows where SUB 1 does (41_arithmetic R96). -/
theorem decBorrow_eq_subBorrow : decBorrow old = subBorrow old 1 := by
  rw [decBorrow, subBorrow_eq, decide_eq_decide, ← BitVec.toNat_inj]
  exact Nat.lt_one_iff.symm

end Flags

/-! ### What each instruction answers -/

theorem immediate_inRange (a : Field10) (s : State) : operandInRange .immediate a s := fun h => nomatch h

theorem State.writeAcc_writeCarry (s : State) (v : Word) (c : Bool) :
    (s.writeAcc v).writeCarry c = { s with acc := v, zf := zeroFlag v, cf := c } := rfl

section Results

variable {m : Mode} {a : Field10} {s : State}

theorem exec_add_inRange (h : operandInRange m a s) :
    exec (.add m a) s = .next { s with
      acc := BitVec.ofNat 32 (s.acc.toNat + (operandValue m a s).toNat),
      cf := decide (2 ^ 32 ≤ s.acc.toNat + (operandValue m a s).toNat),
      zf := decide ((s.acc.toNat + (operandValue m a s).toNat) % 2 ^ 32 = 0) } := by
  rw [exec, execAdd, withOperand_inRange h, State.writeAcc_writeCarry, zeroFlag_add, addCarry_eq, BitVec.add_def]

theorem exec_add_outOfRange (h : ¬ operandInRange m a s) :
    exec (.add m a) s = .fault (.dataAddress (BitVec.ofNat 32 a.toNat) s.pc) := withOperand_outOfRange h _

theorem exec_sub_inRange (h : operandInRange m a s) :
    exec (.sub m a) s = .next { s with
      acc := BitVec.ofInt 32 ((s.acc.toNat : Int) - ((operandValue m a s).toNat : Int)),
      cf := decide (s.acc.toNat < (operandValue m a s).toNat),
      zf := decide (s.acc = operandValue m a s) } := by
  rw [exec, execSub, withOperand_inRange h, State.writeAcc_writeCarry, zeroFlag_sub, subBorrow_eq, sub_eq_ofInt]

theorem exec_sub_outOfRange (h : ¬ operandInRange m a s) :
    exec (.sub m a) s = .fault (.dataAddress (BitVec.ofNat 32 a.toNat) s.pc) := withOperand_outOfRange h _

theorem exec_inc_eq_exec_add_one (s : State) : exec .inc s = exec (.add .immediate 1) s := by
  simp only [exec, execInc, incCarry_eq_addCarry]
  rfl

theorem exec_dec_eq_exec_sub_one (s : State) : exec .dec s = exec (.sub .immediate 1) s := by
  simp only [exec, execDec, decBorrow_eq_subBorrow]
  rfl

end Results

/-! ### The statements -/

/-- Settles O19: the sum that falls below the old accumulator is the one that reaches 2^32. -/
theorem addWritesSumAndCarry : Obligations.AddWritesSumAndCarry := fun _ _ _ =>
  ⟨exec_add_inRange, exec_add_outOfRange⟩

/-- Settles O20: the difference that rises above the old accumulator is the one that borrows. -/
theorem subWritesDifferenceAndBorrow : Obligations.SubWritesDifferenceAndBorrow := fun _ _ _ =>
  ⟨exec_sub_inRange, exec_sub_outOfRange⟩

/-- Settles O21: INC is ADD 1 and DEC is SUB 1, whose operands are immediate and so always in range. -/
theorem incAndDecStepByOne : Obligations.IncAndDecStepByOne := by
  intro s
  have hone : (operandValue .immediate 1 s).toNat = 1 := rfl
  constructor
  · have hcarry : 2 ^ 32 ≤ s.acc.toNat + 1 ↔ s.acc.toNat = 2 ^ 32 - 1 := by omega
    have hzero : (s.acc.toNat + 1) % 2 ^ 32 = 0 ↔ s.acc.toNat = 2 ^ 32 - 1 := by omega
    rw [exec_inc_eq_exec_add_one, exec_add_inRange (immediate_inRange 1 s)]
    simp only [hone, hcarry, hzero]
  · have hborrow : s.acc.toNat < 1 ↔ s.acc.toNat = 0 := Nat.lt_one_iff
    have hzero : s.acc = operandValue .immediate 1 s ↔ s.acc.toNat = 1 := BitVec.toNat_inj.symm
    rw [exec_dec_eq_exec_sub_one, exec_sub_inRange (immediate_inRange 1 s)]
    simp only [hone, hborrow, hzero, Nat.cast_one]

end Sys2Proof.Machine
end

section
/-! PROOFS. AND, OR, XOR and NOT: what each answers, as one write of the accumulator (spec/42_logic.md R97 to
R100). -/

namespace Sys2Proof.Machine

/-! ### AND, OR and XOR -/

section Bitwise

variable {m : Mode} {a : Field10} {s : State}

theorem exec_and_inRange (h : operandInRange m a s) :
    exec (.and m a) s = .next (s.writeAcc (s.acc &&& operandValue m a s)) := withOperand_inRange h _

theorem exec_and_outOfRange (h : ¬ operandInRange m a s) :
    exec (.and m a) s = .fault (.dataAddress (BitVec.ofNat 32 a.toNat) s.pc) := withOperand_outOfRange h _

theorem exec_or_inRange (h : operandInRange m a s) :
    exec (.or m a) s = .next (s.writeAcc (s.acc ||| operandValue m a s)) := withOperand_inRange h _

theorem exec_or_outOfRange (h : ¬ operandInRange m a s) :
    exec (.or m a) s = .fault (.dataAddress (BitVec.ofNat 32 a.toNat) s.pc) := withOperand_outOfRange h _

theorem exec_xor_inRange (h : operandInRange m a s) :
    exec (.xor m a) s = .next (s.writeAcc (s.acc ^^^ operandValue m a s)) := withOperand_inRange h _

theorem exec_xor_outOfRange (h : ¬ operandInRange m a s) :
    exec (.xor m a) s = .fault (.dataAddress (BitVec.ofNat 32 a.toNat) s.pc) := withOperand_outOfRange h _

end Bitwise

/-! ### NOT -/

section Not

variable {s : State}

theorem exec_not_of_acc_eq_zero (h : s.acc = 0) : exec .not s = .next { s with acc := 1, zf := false } := by
  have hnot : logicalNot s.acc = 1 := if_pos h
  rw [exec, execNot, hnot]
  rfl

theorem exec_not_of_acc_ne_zero (h : s.acc ≠ 0) : exec .not s = .next { s with acc := 0, zf := true } := by
  have hnot : logicalNot s.acc = 0 := if_neg h
  rw [exec, execNot, hnot]
  rfl

end Not

/-! ### The statements -/

/-- Settles O22: each result is the word operation of the same name, whose bits the library gives. -/
theorem bitwiseLogicResults : Obligations.BitwiseLogicResults := by
  refine fun m a s => ⟨fun hin => ⟨?_, ?_, ?_⟩, fun hout => ?_⟩
  · exact ⟨_, exec_and_inRange hin, fun _ _ => BitVec.getLsbD_and⟩
  · exact ⟨_, exec_or_inRange hin, fun _ _ => BitVec.getLsbD_or⟩
  · exact ⟨_, exec_xor_inRange hin, fun _ _ => BitVec.getLsbD_xor⟩
  · simp only [List.forall_mem_cons]
    exact ⟨exec_and_outOfRange hout, exec_or_outOfRange hout, exec_xor_outOfRange hout, nofun⟩

/-- Settles O23: either way the first NOT answers a known accumulator, on which the second takes the other case. -/
theorem notIsLogicalNegation : Obligations.NotIsLogicalNegation := by
  refine fun s => ⟨exec_not_of_acc_eq_zero, exec_not_of_acc_ne_zero, fun t h => ?_⟩
  by_cases hacc : s.acc = 0
  · obtain rfl := Host.Outcome.next.inj ((exec_not_of_acc_eq_zero hacc).symm.trans h)
    simp only [hacc, if_true, decide_true]
    have hone : (1 : Word) ≠ 0 := by decide
    exact exec_not_of_acc_ne_zero hone
  · obtain rfl := Host.Outcome.next.inj ((exec_not_of_acc_ne_zero hacc).symm.trans h)
    simp only [hacc, if_false, decide_false]
    exact exec_not_of_acc_eq_zero rfl

end Sys2Proof.Machine
end

section
/-! PROOFS. SHL and SHR: count, result and flags as arithmetic on naturals, and what each answers
(spec/43_shift.md R101 to R103). -/

namespace Sys2Proof.Machine

/-! ### The count, the result and the flags -/

section Shift

variable (old : Word) (n : Nat)

/-- The low five bits are the remainder modulo 2^5 (43_shift R101). -/
theorem shiftCount_eq_mod (v : Word) : shiftCount v = v.toNat % 32 :=
  (BitVec.toNat_and v 0x1F).trans (Nat.and_two_pow_sub_one_eq_mod v.toNat 5)

theorem shl_eq_ofNat : old <<< n = BitVec.ofNat 32 (old.toNat * 2 ^ n) := by
  apply BitVec.eq_of_toNat_eq
  rw [BitVec.toNat_shiftLeft, Nat.shiftLeft_eq, BitVec.toNat_ofNat]

theorem shr_eq_ofNat : old >>> n = BitVec.ofNat 32 (old.toNat / 2 ^ n) := by
  rw [← Nat.shiftRight_eq_div_pow, ← BitVec.toNat_ushiftRight, BitVec.ofNat_toNat, BitVec.setWidth_eq]

theorem zeroFlag_shl : zeroFlag (old <<< n) = decide (old.toNat * 2 ^ n % 2 ^ 32 = 0) := by
  rw [zeroFlag, decide_eq_decide, ← BitVec.toNat_inj, BitVec.toNat_shiftLeft, Nat.shiftLeft_eq]
  rfl

/-- Nothing is left exactly when every set bit is shifted out. -/
theorem zeroFlag_shr : zeroFlag (old >>> n) = decide (old.toNat < 2 ^ n) := by
  rw [zeroFlag, decide_eq_decide, ← BitVec.toNat_inj, BitVec.toNat_ushiftRight, Nat.shiftRight_eq_div_pow]
  exact Nat.div_eq_zero_iff_lt (Nat.two_pow_pos n)

/-- A bit of the old accumulator as the carry of a shift, cleared for a count of 0. -/
theorem carryBit_eq (k : Nat) :
    (if n = 0 then false else old.getLsbD k) = decide (n ≠ 0 ∧ old.toNat / 2 ^ k % 2 = 1) := by
  rw [← BitVec.testBit_toNat, Nat.testBit_eq_decide_div_mod_eq]
  by_cases hn : n = 0
  · simp only [hn, if_true, ne_eq, not_true, false_and, decide_false]
  · simp only [hn, if_false, ne_eq, not_false_iff, true_and]

theorem shlCarry_eq : shlCarry old n = decide (n ≠ 0 ∧ old.toNat / 2 ^ (32 - n) % 2 = 1) :=
  carryBit_eq old n (32 - n)

theorem shrCarry_eq : shrCarry old n = decide (n ≠ 0 ∧ old.toNat / 2 ^ (n - 1) % 2 = 1) :=
  carryBit_eq old n (n - 1)

end Shift

/-! ### What each instruction answers -/

section Results

variable {m : Mode} {a : Field10} {s : State}

theorem exec_shl_inRange (h : operandInRange m a s) (n : Nat) (hn : n = (operandValue m a s).toNat % 32) :
    exec (.shl m a) s = .next { s with
      acc := BitVec.ofNat 32 (s.acc.toNat * 2 ^ n),
      cf := decide (n ≠ 0 ∧ s.acc.toNat / 2 ^ (32 - n) % 2 = 1),
      zf := decide (s.acc.toNat * 2 ^ n % 2 ^ 32 = 0) } := by
  rw [exec, execShl, withOperand_inRange h, shiftCount_eq_mod, ← hn, State.writeAcc_writeCarry, zeroFlag_shl,
    shlCarry_eq, shl_eq_ofNat]

theorem exec_shl_outOfRange (h : ¬ operandInRange m a s) :
    exec (.shl m a) s = .fault (.dataAddress (BitVec.ofNat 32 a.toNat) s.pc) := withOperand_outOfRange h _

theorem exec_shr_inRange (h : operandInRange m a s) (n : Nat) (hn : n = (operandValue m a s).toNat % 32) :
    exec (.shr m a) s = .next { s with
      acc := BitVec.ofNat 32 (s.acc.toNat / 2 ^ n),
      cf := decide (n ≠ 0 ∧ s.acc.toNat / 2 ^ (n - 1) % 2 = 1),
      zf := decide (s.acc.toNat < 2 ^ n) } := by
  rw [exec, execShr, withOperand_inRange h, shiftCount_eq_mod, ← hn, State.writeAcc_writeCarry, zeroFlag_shr,
    shrCarry_eq, shr_eq_ofNat]

theorem exec_shr_outOfRange (h : ¬ operandInRange m a s) :
    exec (.shr m a) s = .fault (.dataAddress (BitVec.ofNat 32 a.toNat) s.pc) := withOperand_outOfRange h _

end Results

/-! ### The statements -/

/-- Settles O24: multiplication by 2^n, truncated, with the carry read as a bit of the old accumulator. -/
theorem shlResultAndCarry : Obligations.ShlResultAndCarry := fun _ _ _ =>
  ⟨exec_shl_inRange, exec_shl_outOfRange⟩

/-- Settles O25: division by 2^n, which is 0 exactly below 2^n, with the carry read as a bit of the old
accumulator. -/
theorem shrResultAndCarry : Obligations.ShrResultAndCarry := fun _ _ _ =>
  ⟨exec_shr_inRange, exec_shr_outOfRange⟩

end Sys2Proof.Machine
end

section
/-! PROOFS. JMP, JZ, JNZ, JC and JNC: one execute phase with five conditions, and the step around it
(spec/44_control.md R104 to R109). -/

namespace Sys2Proof.Machine

/-! ### The execute phase -/

/-- The five jumps over an operand, each with whether a state takes it. -/
abbrev jumpsTaken (m : Mode) (a : Field10) (s : State) : List (Instr × Bool) :=
  [(.jmp m a, true), (.jz m a, s.zf), (.jnz m a, !s.zf), (.jc m a, !s.cf), (.jnc m a, !s.cf)]

theorem State.jumpIf_eq (s : State) (c : Bool) (t : Word) :
    s.jumpIf c t = { s with pc := if c then t - 1 else s.pc } := by cases c <;> rfl

section Exec

variable {m : Mode} {a : Field10} {s : State} {i : Instr} {taken : Bool}

/-- All five jumps are the conditional jump on their own condition, JMP's being `true`. -/
theorem exec_of_mem_jumpsTaken (hi : (i, taken) ∈ jumpsTaken m a s) :
    exec i s = withOperand m a s fun t => .next (s.jumpIf taken t) := by
  simp only [List.mem_cons, Prod.mk.injEq, List.not_mem_nil, or_false] at hi
  obtain ⟨rfl, rfl⟩ | ⟨rfl, rfl⟩ | ⟨rfl, rfl⟩ | ⟨rfl, rfl⟩ | ⟨rfl, rfl⟩ := hi <;> rfl

theorem exec_jump_inRange (hi : (i, taken) ∈ jumpsTaken m a s) (h : operandInRange m a s) :
    exec i s = .next (s.jumpIf taken (operandValue m a s)) := by
  rw [exec_of_mem_jumpsTaken hi, withOperand_inRange h]

/-- The operand is resolved before the condition is read, so the fault does not depend on it. -/
theorem exec_jump_outOfRange (hi : (i, taken) ∈ jumpsTaken m a s) (h : ¬ operandInRange m a s) :
    exec i s = .fault (.dataAddress (BitVec.ofNat 32 a.toNat) s.pc) := by
  rw [exec_of_mem_jumpsTaken hi, withOperand_outOfRange h]

/-- A jump on a set flag. -/
theorem exec_jump_of_flag (hi : (i, taken) ∈ jumpsTaken m a s) (h : operandInRange m a s) :
    exec i s = .next { s with pc := if taken then operandValue m a s - 1 else s.pc } := by
  rw [exec_jump_inRange hi h, State.jumpIf_eq]

/-- A jump on a clear flag. -/
theorem exec_jump_of_not_flag {flag : Bool} (hi : (i, !flag) ∈ jumpsTaken m a s) (h : operandInRange m a s) :
    exec i s = .next { s with pc := if flag then s.pc else operandValue m a s - 1 } := by
  rw [exec_jump_inRange hi h, State.jumpIf_eq]
  cases flag <;> rfl

end Exec

/-! ### The step around a jump -/

/-- The `- 1` of a taken jump meets the cycle's `+ 1` (44_control R104). -/
theorem State.advance_jumpIf {s : State} (hr : s.run = .running) (taken : Bool) (t : Word) :
    (s.jumpIf taken t).advance =
      { s with pc := if taken then t else s.pc + 1, steps := s.steps + 1 } := by
  rw [State.advance_eq, State.jumpIf_run, hr, State.jumpIf_eq]
  cases taken
  · rfl
  · simp only [if_true, BitVec.sub_add_cancel]

theorem step_jump {m : Mode} {a : Field10} {s : State} {i : Instr} {taken : Bool}
    (hi : (i, taken) ∈ jumpsTaken m a s) (hs : s.ready) (hd : decode s.fetched = .instr i)
    (h : operandInRange m a s) :
    step s = .next { s with
      ir := s.fetched, pc := if taken then operandValue m a s else s.pc + 1, steps := s.steps + 1 } := by
  obtain ⟨-, hrun, -⟩ := id hs
  have hexec : exec i (s.writeIr s.fetched) =
      .next ((s.writeIr s.fetched).jumpIf taken (operandValue m a (s.writeIr s.fetched))) :=
    exec_jump_inRange hi h
  rw [step_ready hs hd, hexec, operandValue_writeIr, endStep, State.advance_jumpIf (s := s.writeIr s.fetched) hrun]
  rfl

/-- No fetch leaves instruction memory (20_memory R38). -/
theorem step_of_pc_outOfRange {s : State} (hf : s.fault = none) (hr : s.run = .running)
    (hle : s.cfg.imemWords ≤ s.pc.toNat) : step s = .fault (.pcRange s.pc) := by
  simp only [step, beginStep, hf, hr, iFetch_of_le hle, raise]

/-! ### The statements -/

/-- Settles O27: the zero flag is JZ's condition and its complement JNZ's. -/
theorem jzAndJnzAreComplements : Obligations.JzAndJnzAreComplements := by
  intro m a s
  have hjz : (Instr.jz m a, s.zf) ∈ jumpsTaken m a s := by simp
  have hjnz : (Instr.jnz m a, !s.zf) ∈ jumpsTaken m a s := by simp
  refine ⟨exec_jump_of_flag hjz, exec_jump_of_not_flag hjnz, fun hout => ?_⟩
  simp only [List.forall_mem_cons]
  exact ⟨exec_jump_outOfRange hjz hout, exec_jump_outOfRange hjnz hout, nofun⟩

/-- Settles O28: the condition of both is the complement of the carry, so their handlers are one. -/
theorem jcAndJncJumpOnClearCarry : Obligations.JcAndJncJumpOnClearCarry := by
  intro m a s
  have hjc : (Instr.jc m a, !s.cf) ∈ jumpsTaken m a s := by simp
  have hjnc : (Instr.jnc m a, !s.cf) ∈ jumpsTaken m a s := by simp
  refine ⟨exec_jump_of_not_flag hjc, exec_jump_of_not_flag hjnc, fun hout => ?_, ?_⟩
  · simp only [List.forall_mem_cons]
    exact ⟨exec_jump_outOfRange hjc hout, exec_jump_outOfRange hjnc hout, nofun⟩
  · rw [exec_of_mem_jumpsTaken hjc, exec_of_mem_jumpsTaken hjnc]

/-- Settles O36: the step leaves the block Running and without a fault, so only the range of the new pc can
stop the next one. -/
theorem jumpsLandOnTheirTarget : Obligations.JumpsLandOnTheirTarget := by
  intro s m a i taken hi hs hd hin
  obtain ⟨hfault, hrun, -⟩ := id hs
  exact ⟨_, step_jump hi hs hd hin, rfl, step_of_pc_outOfRange hfault hrun⟩

/-- Settles O26: JMP is the jump whose condition always holds. -/
theorem jmpWritesTargetLessOne : Obligations.JmpWritesTargetLessOne := by
  intro m a s
  have hjmp : (Instr.jmp m a, true) ∈ jumpsTaken m a s := by simp
  exact ⟨exec_jump_of_flag hjmp, exec_jump_outOfRange hjmp⟩

end Sys2Proof.Machine
end

section
/-! PROOFS. NOP and HLT: the step around them, and the run over the zero slots up to the end of instruction
memory (spec/45_system.md R110, R111, spec/60_exceptions.md R122). -/

namespace Sys2Proof.Machine

/-! ### The step around NOP and HLT -/

theorem step_nop {s : State} (hs : s.ready) (hd : decode s.fetched = .instr .nop) :
    step s = .next { s with ir := s.fetched, pc := s.pc + 1, steps := s.steps + 1 } := by
  obtain ⟨-, hrun, -⟩ := id hs
  have hstep : step s = .next (s.writeIr s.fetched).advance := step_ready hs hd
  rw [hstep, State.advance_eq, State.writeIr_run, if_pos hrun]
  rfl

/-- HLT has stopped the block before the cycle's advance, so the step counter stays (10_state R28). -/
theorem step_hlt {s : State} (hs : s.ready) (hd : decode s.fetched = .instr .hlt) :
    step s = .next { s with ir := s.fetched, pc := s.pc + 1, run := .stopped } :=
  step_ready hs hd

theorem step_of_stopped {s : State} (hf : s.fault = none) (hr : s.run = .stopped) :
    step s = .fault (.usage .stepWhileStopped) := by
  simp only [step, beginStep, hf, hr, raise]

/-- Settles O29: the end of the cycle counts a step only while the block runs. -/
theorem nopAndHltResults : Obligations.NopAndHltResults := by
  refine fun s => ⟨rfl, rfl, step_nop, fun hs hd => ?_⟩
  obtain ⟨hfault, -, -⟩ := id hs
  exact ⟨_, serve_step_of_next (step_hlt hs hd), rfl, step_of_stopped hfault rfl⟩

/-! ### The run over zero slots -/

theorem runToEnd_of_next {s t : State} (h : step s = .next t) (ht : t.run = .running) (n : Nat) :
    runToEnd (n + 1) s = runToEnd n t := by
  simp only [runToEnd, serve_step_of_next h, signalOf, ht]

theorem runToEnd_of_fault {s : State} {f : Fault} (hf : s.fault = none) (h : step s = .fault f) (n : Nat) :
    runToEnd (n + 1) s = .abnormal f (s.recordFault f) := by
  simp only [runToEnd, serve, hf, issue, h]

theorem runToEnd_of_pc_outOfRange {s : State} (hf : s.fault = none) (hr : s.run = .running)
    (hle : s.cfg.imemWords ≤ s.pc.toNat) (n : Nat) :
    runToEnd (n + 1) s = .abnormal (.pcRange s.pc) { s with fault := some (.pcRange s.pc) } :=
  runToEnd_of_fault hf (step_of_pc_outOfRange hf hr hle) n

/-- The state after `k` steps over slots that hold 0, where `k` is not 0. -/
def State.pastZeroSlots (s : State) (k : Nat) : State :=
  { s with pc := s.pc + BitVec.ofNat 32 k, ir := 0, steps := s.steps + k }

@[simp] theorem State.pastZeroSlots_cfg (s : State) (k : Nat) : (s.pastZeroSlots k).cfg = s.cfg := rfl

theorem State.pastZeroSlots_pastZeroSlots (s : State) (j k : Nat) :
    (s.pastZeroSlots j).pastZeroSlots k = s.pastZeroSlots (j + k) := by
  simp only [State.pastZeroSlots, BitVec.ofNat_add, BitVec.add_assoc, Nat.add_assoc]

theorem State.pastZeroSlots_pc_toNat {s : State} {k : Nat} (h : s.pc.toNat + k < 2 ^ 32) :
    (s.pastZeroSlots k).pc.toNat = s.pc.toNat + k := by
  simp only [State.pastZeroSlots, BitVec.toNat_add, BitVec.toNat_ofNat]
  omega

/-- A zero slot is a NOP (30_encoding R60). -/
theorem runToEnd_zeroSlot {s : State} (hs : s.ready) (hzero : s.fetched = 0) (n : Nat) :
    runToEnd (n + 1) s = runToEnd n (s.pastZeroSlots 1) := by
  obtain ⟨-, hrun, -⟩ := id hs
  have hnop : decode s.fetched = .instr .nop := by
    rw [hzero]
    rfl
  rw [runToEnd_of_next (step_nop hs hnop) hrun, hzero]
  rfl

/-- Each of `k + 1` zero slots within instruction memory takes one step. -/
theorem runToEnd_zeroSlots (n k : Nat) : ∀ s : State, s.fault = none → s.run = .running →
    s.pc.toNat + k < s.cfg.imemWords → s.cfg.imemWords < 2 ^ 32 →
    (∀ j, s.pc.toNat ≤ j → j ≤ s.pc.toNat + k → Memory.read s.imem j = 0) →
    runToEnd (n + (k + 1)) s = runToEnd n (s.pastZeroSlots (k + 1)) := by
  induction k with
  | zero =>
    intro s hf hr hin _ hzero
    exact runToEnd_zeroSlot ⟨hf, hr, hin⟩ (hzero _ le_rfl le_rfl) n
  | succ k ih =>
    intro s hf hr hin hsize hzero
    have hpc : (s.pastZeroSlots 1).pc.toNat = s.pc.toNat + 1 := State.pastZeroSlots_pc_toNat (by omega)
    calc runToEnd (n + (k + 1 + 1)) s
      _ = runToEnd (n + (k + 1)) (s.pastZeroSlots 1) :=
        runToEnd_zeroSlot ⟨hf, hr, by omega⟩ (hzero _ le_rfl (by omega)) _
      _ = runToEnd n ((s.pastZeroSlots 1).pastZeroSlots (k + 1)) :=
        ih (s.pastZeroSlots 1) hf hr (by rw [hpc, State.pastZeroSlots_cfg]; omega) hsize
          fun j hle hlt => hzero j (by omega) (by omega)
      _ = runToEnd n (s.pastZeroSlots (k + 1 + 1)) := by
        rw [State.pastZeroSlots_pastZeroSlots, Nat.add_comm 1]

/-- Settles O48: the slots run as NOPs, which leaves the block Running with the pc at IMEM_WORDS. -/
theorem zeroSlotsRunOffTheEnd : Obligations.ZeroSlotsRunOffTheEnd := by
  intro s ⟨hfault, hrun, hin⟩ hsize hzero
  obtain ⟨k, hk⟩ : ∃ k, s.cfg.imemWords - s.pc.toNat = k + 1 :=
    Nat.exists_eq_add_one.mpr (Nat.sub_pos_of_lt hin)
  have hwords : s.pc.toNat + (k + 1) = s.cfg.imemWords := by omega
  have hend : (s.pastZeroSlots (k + 1)).pc = BitVec.ofNat 32 s.cfg.imemWords := by
    rw [← hwords, BitVec.ofNat_add, BitVec.ofNat_toNat, BitVec.setWidth_eq]
    rfl
  have hout : (s.pastZeroSlots (k + 1)).cfg.imemWords ≤ (s.pastZeroSlots (k + 1)).pc.toNat := by
    rw [State.pastZeroSlots_pc_toNat (hwords ▸ hsize), hwords, State.pastZeroSlots_cfg]
  rw [hk, ← hend]
  calc runToEnd (k + 1 + 1) s
    _ = runToEnd (0 + 1) (s.pastZeroSlots (k + 1)) := by
      rw [Nat.add_comm (k + 1)]
      exact runToEnd_zeroSlots 1 k s hfault hrun (by omega) hsize fun j hle hlt => hzero j hle (by omega)
    _ = _ := runToEnd_of_pc_outOfRange (s := s.pastZeroSlots (k + 1)) hfault hrun hout 0

end Sys2Proof.Machine
end

section
/-! PROOFS. Faults: which an instruction, a step and a host command raise, what is recorded of them, and that they
are final (spec/60_exceptions.md R114, R115, R121 to R125). -/

namespace Sys2Proof.Machine

/-! ### The faults of an instruction -/

/-- Every way an instruction can fault (60_exceptions R124). -/
inductive DataFault (i : Instr) (s : State) : Fault → Prop where
  /-- The multiplexer's read. -/
  | field {m : Mode} {a : Field10} (hi : i.operand = some (m, a)) (hout : ¬ operandInRange m a s) :
      DataFault i s (.dataAddress (BitVec.ofNat 32 a.toNat) s.pc)
  /-- The access of STORE or LOADIND at the address that the operand gives. -/
  | address {m : Mode} {a : Field10} (hi : i.operand = some (m, a)) (hin : operandInRange m a s)
      (hop : i.op ∈ [Op.store, .loadind]) (hle : s.cfg.dmemWords ≤ (operandValue m a s).toNat) :
      DataFault i s (.dataAddress (operandValue m a s) s.pc)

section Exec

variable {i : Instr} {m : Mode} {a : Field10} {s : State} {f : Fault}

theorem withOperand_fault {k : Word → Result} (h : withOperand m a s k = .fault f) :
    ¬ operandInRange m a s ∧ f = .dataAddress (BitVec.ofNat 32 a.toNat) s.pc ∨
      operandInRange m a s ∧ k (operandValue m a s) = .fault f := by
  obtain ⟨hin, e⟩ | ⟨hout, e⟩ := withOperand_cases m a s k
  · exact .inr ⟨hin, e ▸ h⟩
  · rw [e] at h
    cases h
    exact .inl ⟨hout, rfl⟩

/-- The fault inversion lemma of `exec`. -/
theorem dataFault_of_exec (h : exec i s = .fault f) : DataFault i s f := by
  cases i with
  | nop | inc | dec | not | hlt => cases h
  | store m a | loadind m a =>
    obtain ⟨hout, rfl⟩ | ⟨hin, h⟩ := withOperand_fault h
    · exact .field rfl hout
    · obtain hlt | hle := lt_or_ge (operandValue m a s).toNat s.cfg.dmemWords
      · simp only [memWrite_of_lt hlt, memRead_of_lt hlt, reduceCtorEq] at h
      · simp only [memWrite_of_le hle, memRead_of_le hle, raise, Host.Outcome.fault.injEq] at h
        exact h ▸ .address rfl hin (by simp [Instr.op]) hle
  | _ =>
    obtain ⟨hout, rfl⟩ | ⟨-, h⟩ := withOperand_fault h
    · exact .field rfl hout
    · cases h

/-- The operand is resolved first, whatever the operation does with it (30_encoding R67). -/
theorem exec_operand_outOfRange (hi : i.operand = some (m, a)) (hout : ¬ operandInRange m a s) :
    exec i s = .fault (.dataAddress (BitVec.ofNat 32 a.toNat) s.pc) := by
  cases i with
  | nop | inc | dec | not | hlt => cases hi
  | _ =>
    cases hi
    exact withOperand_outOfRange hout _

/-- The two operations with an access of their own are STORE and LOADIND over their operand. -/
theorem instr_of_op_store_loadind (hi : i.operand = some (m, a)) (hop : i.op ∈ [Op.store, .loadind]) :
    i = .store m a ∨ i = .loadind m a := by
  obtain ⟨-, he⟩ := instr_of_operand_some hi
  obtain hop | hop := List.mem_pair.mp hop
  · exact .inl (by rw [← he, hop]; rfl)
  · exact .inr (by rw [← he, hop]; rfl)

theorem exec_fault_iff : exec i s = .fault f ↔ DataFault i s f := by
  refine ⟨dataFault_of_exec, fun h => ?_⟩
  cases h with
  | field hi hout => exact exec_operand_outOfRange hi hout
  | address hi hin hop hle =>
    obtain rfl | rfl := instr_of_op_store_loadind hi hop
    · exact exec_store_of_le hin hle
    · exact exec_loadind_of_le hin hle

theorem operandValue_immediate_lt (a : Field10) (s : State) : (operandValue .immediate a s).toNat < 1024 := by
  rw [operandValue, ← zext32_eq_ofNat, zext32_toNat]
  exact a.isLt

end Exec

/-- Settles O52: from 1024 words up every field is in range, so only an address read from memory can be out. -/
theorem dataAddressFaultsExactlyWhenOutOfRange : Obligations.DataAddressFaultsExactlyWhenOutOfRange := by
  refine fun i s f => ⟨exec_fault_iff.trans ⟨fun h => ?fault, fun h => ?raised⟩, fun hsize h => ?large⟩
  case fault =>
    cases h with
    | field hi hout => exact ⟨_, _, hi, .inl ⟨hout, rfl⟩⟩
    | address hi hin hop hle => exact ⟨_, _, hi, .inr ⟨hin, hop, hle, rfl⟩⟩
  case raised =>
    obtain ⟨m, a, hi, ⟨hout, rfl⟩ | ⟨hin, hop, hle, rfl⟩⟩ := h
    · exact .field hi hout
    · exact .address hi hin hop hle
  case large =>
    cases dataFault_of_exec h with
    | @field m a hi hout => exact absurd (fun _ => a.isLt.trans_le hsize) hout
    | @address m a hi hin hop hle =>
      cases m with
      | immediate => exact absurd (hsize.trans hle) (not_le.mpr (operandValue_immediate_lt a s))
      | indirect => exact ⟨a, instr_of_op_store_loadind hi hop, hle, rfl⟩

/-! ### The faults of a step -/

/-- The fault names the pc and the fetched word as they stand in the state (60_exceptions R115). -/
def Fault.Names (s : State) : Fault → Prop
  | .usage _ => True
  | .pcRange p => p = s.pc
  | .illegalOpcode w p => w = s.fetched ∧ p = s.pc
  | .dataAddress _ p => p = s.pc

section Step

variable {s : State} {f : Fault}

theorem step_of_recorded (hf : s.fault = some f) : step s = .fault f := by
  simp only [step, beginStep, hf, raise]

theorem step_of_illegal (hs : s.ready) (hw : 0xA000 ≤ s.fetched.toNat) :
    step s = .fault (.illegalOpcode s.fetched s.pc) := by
  obtain ⟨hf, hr, hlt⟩ := hs
  have hd : decode s.fetched = .illegalOpcode _ := decode_of_illegal (by omega)
  simp only [step, beginStep, hf, hr, iFetch_of_lt hlt, hd, raise]

/-- The end of the cycle raises no fault of its own. -/
theorem endStep_fault {r : Result} (h : endStep r = .fault f) : r = .fault f := by
  cases r with
  | fault _ =>
    cases h
    rfl
  | next _ | refused _ => cases h

theorem step_of_dataFault {i : Instr} (hs : s.ready) (hd : decode s.fetched = .instr i)
    (h : DataFault i (s.writeIr s.fetched) f) : step s = .fault f := by
  rw [step_ready hs hd, exec_fault_iff.mpr h]
  rfl

theorem step_fault_names (hf : s.fault = none) (h : step s = .fault f) : f.Names s := by
  cases hr : s.run with
  | stopped =>
    cases (step_of_stopped hf hr).symm.trans h
    trivial
  | running =>
    obtain hle | hlt := le_or_gt s.cfg.imemWords s.pc.toNat
    · cases (step_of_pc_outOfRange hf hr hle).symm.trans h
      rfl
    · obtain ⟨-, o, ho⟩ | hcode := code_defined_or_illegal s.fetched
      · rw [step_ready ⟨hf, hr, hlt⟩ (decode_of_code ho)] at h
        cases dataFault_of_exec (endStep_fault h) with
        | field _ _ | address _ _ _ _ => rfl
      · cases (step_of_illegal ⟨hf, hr, hlt⟩ (by omega)).symm.trans h
        exact ⟨rfl, rfl⟩

end Step

/-! ### The faults of a command -/

section Command

variable {c : Command} {s t : State} {f : Fault} {legal : RunState} {cause : UsageCause} {r : Result}

theorem accept_of_legal (hf : s.fault = none) (hr : s.run = legal) : accept s legal cause r = r := by
  simp only [accept, hf, if_pos hr]

theorem accept_of_not_legal (hf : s.fault = none) (hr : s.run ≠ legal) :
    accept s legal cause r = .fault (.usage cause) := by
  simp only [accept, hf, if_neg hr, raise]

/-- A guard adds its usage fault and no other to what it guards. -/
theorem accept_fault (hf : s.fault = none) (hr : r ≠ .fault f) (h : accept s legal cause r = .fault f) :
    ∃ cause, f = .usage cause := by
  by_cases hrun : s.run = legal
  · exact absurd ((accept_of_legal hf hrun).symm.trans h) hr
  · cases (accept_of_not_legal hf hrun).symm.trans h
    exact ⟨_, rfl⟩

theorem issue_fault_of_ne_step (hf : s.fault = none) (hc : c ≠ .step) (h : issue c s = .fault f) :
    ∃ cause, f = .usage cause := by
  cases c with
  | step => exact absurd rfl hc
  | start | stop => exact accept_fault hf (by nofun) h
  | loadInstructions img | loadData img => exact accept_fault hf (by split <;> nofun) h

theorem issue_fault_names (hf : s.fault = none) (h : issue c s = .fault f) : f.Names s := by
  by_cases hc : c = .step
  · subst hc
    exact step_fault_names hf h
  · obtain ⟨cause, rfl⟩ := issue_fault_of_ne_step hf hc h
    trivial

theorem serve_of_recorded (c : Command) (hf : s.fault = some f) : serve c s = (s, .ignored f) := by
  simp only [serve, hf]

theorem serve_of_next (hf : s.fault = none) (h : issue c s = .next t) : serve c s = (t, responseOf c t) := by
  simp only [serve, hf, h]

theorem serve_of_fault (hf : s.fault = none) (h : issue c s = .fault f) :
    serve c s = (s.recordFault f, .faulted f) := by
  simp only [serve, hf, h]

theorem responseOf_ne_faulted (c : Command) (t : State) (f : Fault) : responseOf c t ≠ .faulted f := by
  cases c with
  | step => cases h : t.run <;> simp [responseOf, signalOf, h]
  | _ => nofun

/-- The inversion lemma of a command answered with a fault. -/
theorem serve_faulted (h : serve c s = (t, .faulted f)) :
    s.fault = none ∧ issue c s = .fault f ∧ t = s.recordFault f := by
  cases hf : s.fault with
  | some g => cases (serve_of_recorded c hf).symm.trans h
  | none =>
    cases hi : issue c s with
    | next u =>
      have hresponse := congrArg Prod.snd ((serve_of_next hf hi).symm.trans h)
      exact absurd hresponse (responseOf_ne_faulted c u f)
    | fault g =>
      cases (serve_of_fault hf hi).symm.trans h
      exact ⟨rfl, rfl, rfl⟩
    | refused r =>
      simp only [serve, hf, hi] at h
      cases h

end Command

/-! ### The statements -/

/-- Settles O51: each check of the cycle comes before the next, and the execute phase resolves the operand first. -/
theorem stepFaultPriority : Obligations.StepFaultPriority := by
  refine fun s hf => ⟨fun _ _ => issue_fault_of_ne_step hf, step_of_stopped hf, step_of_pc_outOfRange hf,
    step_of_illegal, fun i m a hs hd hi => ⟨fun hout => ?field, fun hin hop hle => ?address⟩⟩
  case field => exact step_of_dataFault hs hd (.field hi hout)
  case address =>
    rw [← operandValue_writeIr m a s s.fetched] at hle ⊢
    exact step_of_dataFault hs hd (.address hi hin hop hle)

/-- Settles O50: the state is the one with the fault recorded, whose `ir` an illegal opcode alone can change. -/
theorem faultsArePrecise : Obligations.FaultsArePrecise := by
  intro c s t f h
  obtain ⟨hf, hi, rfl⟩ := serve_faulted h
  have hnames := issue_fault_names hf hi
  refine ⟨s.recordFault_eq f, ?_⟩
  cases f with
  | usage cause => exact ⟨fun _ _ => rfl, nofun, nofun, nofun⟩
  | pcRange p =>
    obtain rfl : p = s.pc := hnames
    exact ⟨nofun, by rintro _ ⟨⟩; exact ⟨rfl, rfl⟩, nofun, nofun⟩
  | illegalOpcode w p =>
    obtain ⟨rfl, rfl⟩ : w = s.fetched ∧ p = s.pc := hnames
    exact ⟨nofun, nofun, by rintro _ _ ⟨⟩; exact ⟨rfl, rfl, rfl⟩, nofun⟩
  | dataAddress addr p =>
    obtain rfl : p = s.pc := hnames
    exact ⟨nofun, nofun, nofun, by rintro _ _ ⟨⟩; exact ⟨rfl, rfl⟩⟩

theorem serveAll_of_recorded {s : State} {f : Fault} (hf : s.fault = some f) (cs : List Command) :
    serveAll cs s = s ∧ ∀ r ∈ responses cs s, r = .ignored f := by
  induction cs with
  | nil => exact ⟨rfl, nofun⟩
  | cons c cs ih =>
    simp only [serveAll, responses, serve_of_recorded c hf, List.forall_mem_cons, true_and]
    exact ih

theorem runToEnd_of_recorded {s : State} {f : Fault} (hf : s.fault = some f) (n : Nat) :
    runToEnd (n + 1) s = .abnormal f s := by
  simp only [runToEnd, serve_of_recorded .step hf]

/-- Settles O49: a command writes the record when it faults, and none gets past a record. -/
theorem faultIsRecordedAndFinal : Obligations.FaultIsRecordedAndFinal := by
  refine ⟨fun c s t f h => ?recorded, fun cs s f hf => ?final⟩
  case recorded =>
    obtain ⟨-, -, rfl⟩ := serve_faulted h
    exact s.recordFault_fault f
  case final =>
    obtain ⟨hstate, hresponses⟩ := serveAll_of_recorded hf cs
    refine ⟨hstate, hresponses, step_of_recorded hf, fun n t => ?_⟩
    cases n with
    | zero => nofun
    | succ n =>
      rw [runToEnd_of_recorded hf]
      nofun

/-- Settles O53: the step faults at decode, and recording an illegal opcode writes `ir`. -/
theorem illegalWordFaultsAtDecode : Obligations.IllegalWordFaultsAtDecode := by
  intro s hs hw
  obtain ⟨hf, -, -⟩ := id hs
  exact serve_of_fault (c := .step) hf (step_of_illegal hs hw)

end Sys2Proof.Machine
end

section
/-! PROOFS. The other host commands and the inspection surface (spec/60_exceptions.md R116 to R119). -/

namespace Sys2Proof.Machine

/-- Settles O54: in the legal run state the guard lets the writes through, else it raises its usage fault. -/
theorem startAndStopCommands : Obligations.StartAndStopCommands := by
  refine fun s hf => ⟨fun hr => ?start, fun hr => ?startFault, fun hr => ?stop, fun hr => ?stopFault⟩
  case start => exact serve_of_next (c := .start) hf (accept_of_legal hf hr)
  case startFault => exact serve_of_fault (c := .start) hf (accept_of_not_legal hf (by simp [hr]))
  case stop => exact serve_of_next (c := .stop) hf (accept_of_legal hf hr)
  case stopFault => exact serve_of_fault (c := .stop) hf (accept_of_not_legal hf (by simp [hr]))

theorem serve_loadData {img : List Word} {s : State} (hf : s.fault = none) (hr : s.run = .stopped)
    (hlen : img.length ≤ s.cfg.dmemWords) :
    serve (.loadData img) s = ({ s with dmem := Memory.ofImage img }, .done) :=
  serve_of_next (c := .loadData img) hf ((accept_of_legal hf hr).trans (if_pos hlen))

/-- Settles O55: the array becomes the image's memory, whose reads are known. -/
theorem loadCommands : Obligations.LoadCommands := by
  refine ⟨fun img s hf => ⟨fun hr hlen => ?instructions, fun hr => ?instructionsFault⟩,
    fun img s hf => ⟨fun hr hlen => ?data, fun hr => ?dataFault⟩⟩
  case instructions => exact ⟨_, serve_loadInstructions hf hr hlen, rfl, Memory.read_ofImage img⟩
  case instructionsFault =>
    exact serve_of_fault (c := .loadInstructions img) hf (accept_of_not_legal hf (by simp [hr]))
  case data => exact ⟨_, serve_loadData hf hr hlen, rfl, Memory.read_ofImage img⟩
  case dataFault => exact serve_of_fault (c := .loadData img) hf (accept_of_not_legal hf (by simp [hr]))

theorem Memory.toArrayList_length {w : Nat} (n : Nat) (m : Memory w) : (Memory.toArrayList n m).length = n := by
  simp [Memory.toArrayList]

theorem Memory.toArrayList_getElem? {w n k : Nat} (h : k < n) (m : Memory w) :
    (Memory.toArrayList n m)[k]? = some (Memory.read m k) := by
  simp [Memory.toArrayList, h]

theorem disassemble_of_instr {w : IWord} {i : Instr} (h : decode w = .instr i) :
    disassemble w = some (disassembleInstr i) := by
  simp only [disassemble, h]

theorem disassemble_of_illegal {w : IWord} (h : 0xA000 ≤ w.toNat) : disassemble w = none := by
  have hd : decode w = .illegalOpcode _ := decode_of_illegal (by omega)
  simp only [disassemble, hd]

/-- Settles O58: the registers are shown as they are, and the decoded form and the arrays by their own rules. -/
theorem inspectionShowsTheState : Obligations.InspectionShowsTheState := fun _ =>
  ⟨rfl, rfl, rfl, rfl, rfl, rfl, rfl, rfl, disassemble_of_illegal, fun _ => disassemble_of_instr,
    Memory.toArrayList_length _ _, Memory.toArrayList_length _ _,
    fun _ hk => Memory.toArrayList_getElem? hk _, fun _ hk => Memory.toArrayList_getElem? hk _⟩

end Sys2Proof.Machine
end

section
/-! PROOFS. Power-on, the boot sequence, the placing of a word, and the normal end of a run
(spec/70_reset_and_hazards.md R136 to R140). -/

namespace Sys2Proof.Machine

/-- Settles O56: the registers are written out, and an empty memory reads as 0. -/
theorem powerOnState : Obligations.PowerOnState := fun _ =>
  ⟨rfl, rfl, rfl, rfl, rfl, rfl, rfl, rfl, Memory.read_nil, Memory.read_nil⟩

theorem powerOn_wf {c : Config} (hc : c.wf = true) : (State.powerOn c).wf :=
  ⟨hc, Memory.wf_nil, nofun, Memory.wf_nil, nofun⟩

/-- Settles O40: empty memories are canonical, and `State.reset` is the power-on state of legal parameters. -/
theorem powerOnIsWellFormed : Obligations.PowerOnIsWellFormed := ⟨fun _ => powerOn_wf, powerOn_wf rfl⟩

/-- Slot 0, the entry point, is always there (70_reset R137). -/
theorem Config.imemWords_pos {c : Config} (hc : c.wf = true) : 0 < c.imemWords := by
  simp only [Config.wf, Bool.and_eq_true, decide_eq_true_eq] at hc
  exact hc.1

/-! ### The boot sequence -/

theorem serve_start {s : State} (hf : s.fault = none) (hr : s.run = .stopped) :
    serve .start s = (s.started, .done) :=
  serve_of_next (c := .start) hf (accept_of_legal hf hr)

/-- The state that the boot sequence leads to. -/
def State.booted (s : State) (prog : List IWord) (data : List Word) : State :=
  { s with imem := Memory.ofImage prog, dmem := Memory.ofImage data }.started

section Boot

variable {prog : List IWord} {data : List Word} {s : State}

/-- Each of the three commands leaves the block as the next one needs it: Stopped and without a fault. -/
theorem serveAll_bootCommands (hf : s.fault = none) (hr : s.run = .stopped)
    (hprog : prog.length ≤ s.cfg.imemWords) (hdata : data.length ≤ s.cfg.dmemWords) :
    serveAll (bootCommands prog data) s = s.booted prog data ∧
      responses (bootCommands prog data) s = [.done, .done, .done] := by
  have h1 := serve_loadInstructions hf hr hprog
  have h2 := serve_loadData (s := { s with imem := Memory.ofImage prog }) hf hr hdata
  have h3 := serve_start (s := { s with imem := Memory.ofImage prog, dmem := Memory.ofImage data }) hf hr
  simp only [bootCommands, serveAll, responses, h1, h2, h3, State.booted, and_self]

theorem State.booted_ready (hf : s.fault = none) (hc : s.cfg.wf = true) : (s.booted prog data).ready :=
  ⟨hf, rfl, Config.imemWords_pos hc⟩

end Boot

/-- Settles O57: the booted state fetches from slot 0 of the loaded image. -/
theorem bootLeadsToSlotZero : Obligations.BootLeadsToSlotZero := by
  intro prog data s hf hr hc hprog hdata
  obtain ⟨hstate, hresponses⟩ := serveAll_bootCommands hf hr hprog hdata
  exact ⟨s.booted prog data, hstate, hresponses, State.booted_ready hf hc, rfl, rfl, rfl, rfl, rfl, rfl, rfl,
    Memory.read_ofImage prog 0, Memory.read_ofImage prog, Memory.read_ofImage data⟩

/-! ### The placed word -/

/-- The bits from 16 up are not read. -/
theorem decode_of_decodeTableWord {w : Nat} {i : Instr} (h : decodeTableWord 16 w = some i) :
    decode (BitVec.ofNat 16 (w % 2 ^ 16)) = .instr i := by
  unfold decodeTableWord at h
  split at h
  · cases h
    assumption
  · cases h

theorem step_of_fetched {s : State} {w : IWord} {i : Instr} (hs : s.ready) (hw : s.fetched = w)
    (hd : decode w = .instr i) : step s = endStep (exec i (s.writeIr w)) := by
  subst hw
  exact step_ready hs hd

theorem fetchSlot_lt {s : State} (hc : s.cfg.wf = true) : s.fetchSlot.toNat < s.cfg.imemWords := by
  unfold State.fetchSlot
  split
  · assumption
  · exact Config.imemWords_pos hc

section Placed

variable {s : State} {w : IWord}

theorem withWordAtPc_ready (hc : s.cfg.wf = true) (w : IWord) : (s.withWordAtPc w).ready :=
  ⟨rfl, rfl, fetchSlot_lt hc⟩

theorem withWordAtPc_fetched (hm : Memory.wf s.imem) (w : IWord) : (s.withWordAtPc w).fetched = w :=
  Memory.read_write_same hm _ w

theorem step_withWordAtPc {i : Instr} (hc : s.cfg.wf = true) (hm : Memory.wf s.imem)
    (hd : decode w = .instr i) :
    step (s.withWordAtPc w) = endStep (exec i ((s.withWordAtPc w).writeIr w)) :=
  step_of_fetched (withWordAtPc_ready hc w) (withWordAtPc_fetched hm w) hd

end Placed

/-- Settles O60: the slot of the pc is written and is then the one fetched. -/
theorem fetchWordRunsNext : Obligations.FetchWordRunsNext := by
  intro s w i hc hm hd
  have hword : BitVec.ofNat 16 w = BitVec.ofNat 16 (w % 2 ^ 16) := BitVec.eq_of_toNat_eq (by simp)
  rw [hword]
  exact ⟨withWordAtPc_ready hc _, step_withWordAtPc hc hm (decode_of_decodeTableWord hd),
    fun k hk => Memory.read_write_other hm hk _, rfl, rfl, rfl, rfl, rfl, rfl⟩

/-! ### The normal end of a run -/

theorem core_run_of_next {s u : State} (h : step s = .next u) (k : Nat) :
    Host.Core.run Sys2Proof.core (k + 1) s = Host.Core.run Sys2Proof.core k u := by
  have hcore : Host.Core.step Sys2Proof.core s = .next u := h
  simp only [Host.Core.run, hcore]

/-- A run that ends normally begins with the HLT that ends it, or with a counted step to a run that ends normally. -/
theorem runToEnd_normal_cases {n : Nat} {s t : State} (h : runToEnd (n + 1) s = .normal t) :
    decode s.fetched = .instr .hlt ∧ step s = .next t ∨
      ∃ u, step s = .next u ∧ u.steps = s.steps + 1 ∧ runToEnd n u = .normal t := by
  cases hstep : step s with
  | refused r => exact absurd hstep (step_not_refused s r)
  | fault f =>
    cases hf : s.fault with
    | some g => cases (runToEnd_of_recorded hf n).symm.trans h
    | none => cases (runToEnd_of_fault hf hstep n).symm.trans h
  | next u =>
    obtain ⟨-, i, -, hd, -⟩ := step_next hstep
    have hsteps := step_steps hstep hd
    simp only [runToEnd, serve_step_of_next hstep, step_signal hstep hd] at h
    by_cases hi : i = .hlt
    · simp only [if_pos hi] at h
      cases h
      exact .inl ⟨hi ▸ hd, rfl⟩
    · simp only [if_neg hi] at h hsteps
      exact .inr ⟨u, rfl, hsteps, h⟩

/-- Settles O47, by induction on the bound: the last step is HLT's, and each one before it counts. -/
theorem normalEndCountsTheStepsBeforeHlt : Obligations.NormalEndCountsTheStepsBeforeHlt := by
  intro n
  induction n with
  | zero =>
    intro s t h
    cases h
  | succ n ih =>
    intro s t h
    obtain ⟨hd, hstep⟩ | ⟨u, hu, hsteps, hrest⟩ := runToEnd_normal_cases h
    · obtain ⟨hs, -⟩ := step_next hstep
      cases (step_hlt hs hd).symm.trans hstep
      exact ⟨0, s, n.succ_pos, rfl, hd, hstep, rfl, rfl, rfl, rfl⟩
    · obtain ⟨k, v, hk, hrun, hd, hv, hstopped, hpc, hir, hcount⟩ := ih u t hrest
      exact ⟨k + 1, v, Nat.succ_lt_succ hk, (core_run_of_next hu k).trans hrun, hd, hv, hstopped, hpc, hir,
        by omega⟩

end Sys2Proof.Machine
end
